-- ==== Sys2Proof/Word.lean ====
section
/-! DEFINITION. The widths of the block's values: memory bytes, 16-bit configuration values and
32-bit command and response words (spec/00_scope.md R7, R8; spec/20_memory.md R60, R61). -/

namespace Sys2Proof

/-- One byte of a memory: an unsigned value 0 .. 255 (R8). -/
abbrev Byte := BitVec 8

/-- A 16-bit value: the immediate of a command, a dimension, a padding, a format tag (R7 DIM_BITS). -/
abbrev Half := BitVec 16

/-- A 32-bit value: a command word or a response word (R7 CMD_BITS, R61). -/
abbrev Word := BitVec 32

end Sys2Proof
end

