-- ==== Sys2Proof/Syntax.lean ====
section
/-! DEFINITION. The syntax: the eight commands (spec/30_encoding.md R92), the names of the twelve
registers (spec/10_state.md R23) and of the eight pixel formats (R96), and the assembler lines and
pseudo-instructions of R100 and R101. -/

namespace Sys2Proof

/-- The eight commands of R92, one constructor for each row of the opcode table.  An operand has exactly
the width of its field (R90, R93), so every value of this type has an encoding. -/
inductive Instr where
  | nop
  | wrcfg (reg : Byte) (val : Half)
  | rdreg (reg : Byte)
  | convStart
  | convLine
  | sinkInit
  | push (byte : Byte)
  | sinkFinal
  deriving DecidableEq, Repr

/-- The mnemonic of a command as R92's table spells it. -/
def Instr.mnemonic : Instr → String
  | .nop => "NOP"
  | .wrcfg _ _ => "WRCFG"
  | .rdreg _ => "RDREG"
  | .convStart => "CONV_START"
  | .convLine => "CONV_LINE"
  | .sinkInit => "SINK_INIT"
  | .push _ => "PUSH"
  | .sinkFinal => "SINK_FINAL"

/-- The twelve registers of R23, in the order of their indices. -/
inductive RegName where
  | status | srcFormat | srcWidth | srcHeight | srcPadding | nextRow
  | stgRemaining | dstUsed | dstCap | dstFormat | dstWidth | dstHeight
  deriving DecidableEq, Repr

/-- The eight source pixel formats of R96 (names: R12). -/
inductive Format where
  | yuyv | uyvy | rgb565 | rgb24 | bgr24 | nv12 | nv16 | nv24
  deriving DecidableEq, Repr

/-- One line of assembler (R100) or a pseudo-instruction that stands for several commands (R101).
Operands are numbers as written; `AsmLine.wellFormed` says which fit their fields. -/
inductive AsmLine where
  | nop
  | wrcfg (reg val : Nat)
  | rdreg (reg : Nat)
  | convStart
  | convLine
  | sinkInit
  | push (byte : Nat)
  | sinkFinal
  /-- `SETFRAME fmt, w, h, pad` -/
  | setFrame (fmt w h pad : Nat)
  /-- `PUSHN b0, b1, ..., bk`: at least one byte -/
  | pushN (b0 : Nat) (rest : List Nat)
  deriving DecidableEq, Repr

/-- A sequence of assembler lines with `REPEAT n { body }` (R101). -/
inductive Script where
  | nil
  | line (l : AsmLine) (rest : Script)
  | rep (n : Nat) (body rest : Script)
  deriving DecidableEq, Repr

end Sys2Proof
end

