-- ==== Sys2Proof/WellFormed.lean ====
section
/-! DEFINITION. Well-formedness.  A command of type `Instr` carries operands of exactly its fields' widths
(R90, R93), so there is nothing left to check on it: WRCFG of an undefined or read-only register is a
legal encoding (R94) and every `Instr` is well formed.  What can be ill formed is an assembler line,
whose operands are written as numbers (R100, R101): each must fit the field it goes into. -/

namespace Sys2Proof

/-- A number that fits the register-index field, bits 23:16 (R93). -/
def fitsReg (n : Nat) : Bool := decide (n < 256)

/-- A number that fits the 16-bit immediate, bits 15:0 (R93). -/
def fitsVal (n : Nat) : Bool := decide (n < 65536)

/-- A number that fits the byte of PUSH, bits 7:0 (R93). -/
def fitsByte (n : Nat) : Bool := decide (n < 256)

/-- Every operand of the line fits its field (R100, R101). -/
def AsmLine.wellFormed : AsmLine → Bool
  | .nop => true
  | .wrcfg reg val => fitsReg reg && fitsVal val
  | .rdreg reg => fitsReg reg
  | .convStart => true
  | .convLine => true
  | .sinkInit => true
  | .push byte => fitsByte byte
  | .sinkFinal => true
  | .setFrame fmt w h pad => fitsVal fmt && fitsVal w && fitsVal h && fitsVal pad
  | .pushN b0 rest => (b0 :: rest).all fitsByte

/-- Every line of the script is well formed. -/
def Script.wellFormed : Script → Bool
  | .nil => true
  | .line l rest => l.wellFormed && rest.wellFormed
  | .rep _ body rest => body.wellFormed && rest.wellFormed

end Sys2Proof
end

