-- ==== Sys2Proof/Decode.lean ====
section
/-! DEFINITION. Decoding and encoding of command words (spec/30_encoding.md R90 to R95), the opcode map
as data (R92), and the expansion of assembler lines (R100, R101).  A command word is a 32-bit value, so no
byte order arises (spec/20_memory.md R61). -/

namespace Sys2Proof

/-- Why a word is illegal (R94). -/
inductive Illegal where
  /-- bits 31:24 are none of the eight opcodes -/
  | undefinedOpcode
  /-- a listed opcode with a non-zero bit where its row wants zero -/
  | reservedBits
  deriving DecidableEq, Repr

/-- `op`, bits 31:24 (R90). -/
def opField (w : Word) : Byte := w.extractLsb' 24 8

/-- `a`, bits 23:16 (R90). -/
def aField (w : Word) : Byte := w.extractLsb' 16 8

/-- `imm16`, bits 15:0 (R90). -/
def immField (w : Word) : Half := w.extractLsb' 0 16

/-- `imm16[7:0]`, bits 7:0: the byte of PUSH (R92, R93). -/
def byteField (w : Word) : Byte := w.extractLsb' 0 8

/-- Bits 15:8, zero in every PUSH (R90). -/
def immHighField (w : Word) : Byte := w.extractLsb' 8 8

/-- `i` if the bits its row wants zero are zero, else illegal (R94). -/
def requireZero (zero : Bool) (i : Instr) : Except Illegal Instr :=
  if zero then .ok i else .error .reservedBits

/-- R91, R92, R94: total; a word is one of the eight commands or illegal, by name. -/
def decode (w : Word) : Except Illegal Instr :=
  match (opField w).toNat with
  | 0x00 => requireZero (aField w == 0 && immField w == 0) .nop
  | 0x01 => .ok (.wrcfg (aField w) (immField w))
  | 0x02 => requireZero (immField w == 0) (.rdreg (aField w))
  | 0x10 => requireZero (aField w == 0 && immField w == 0) .convStart
  | 0x11 => requireZero (aField w == 0 && immField w == 0) .convLine
  | 0x20 => requireZero (aField w == 0 && immField w == 0) .sinkInit
  | 0x21 => requireZero (aField w == 0 && immHighField w == 0) (.push (byteField w))
  | 0x22 => requireZero (aField w == 0 && immField w == 0) .sinkFinal
  | _ => .error .undefinedOpcode

/-- The host's question about one row: the command the decoder reads from a word of `nbits` bits. -/
def decodeTableWord (nbits w : Nat) : Option Instr :=
  match decode (BitVec.ofNat 32 (w % 2 ^ nbits)) with
  | .ok i => some i
  | .error _ => none

/-- The opcode byte of a command (R92, column `op`); a fault records it (R200). -/
def Instr.opByte : Instr → Byte
  | .nop => 0x00#8
  | .wrcfg _ _ => 0x01#8
  | .rdreg _ => 0x02#8
  | .convStart => 0x10#8
  | .convLine => 0x11#8
  | .sinkInit => 0x20#8
  | .push _ => 0x21#8
  | .sinkFinal => 0x22#8

/-- The operand fields of a word are the command's operands, and the other bits below the opcode are zero (R90,
R92 column "operands", R94). -/
def Instr.fieldsOf (i : Instr) (w : Word) : Prop :=
  match i with
  | .nop | .convStart | .convLine | .sinkInit | .sinkFinal => aField w = 0#8 ∧ immField w = 0#16
  | .wrcfg reg val => aField w = reg ∧ immField w = val
  | .rdreg reg => aField w = reg ∧ immField w = 0#16
  | .push byte => aField w = 0#8 ∧ immHighField w = 0#8 ∧ byteField w = byte

/-- The format CMD32: `{op, a, imm16}` (R90). -/
def cmd32 (op a : Byte) (imm : Half) : Word := op ++ a ++ imm

/-- The word of a command (R92, R100). -/
def encode : Instr → Word
  | .nop => cmd32 0x00#8 0#8 0#16
  | .wrcfg reg val => cmd32 0x01#8 reg val
  | .rdreg reg => cmd32 0x02#8 reg 0#16
  | .convStart => cmd32 0x10#8 0#8 0#16
  | .convLine => cmd32 0x11#8 0#8 0#16
  | .sinkInit => cmd32 0x20#8 0#8 0#16
  | .push byte => cmd32 0x21#8 0#8 ((0#8 : Byte) ++ byte)
  | .sinkFinal => cmd32 0x22#8 0#8 0#16

/-- One row of the opcode map of R92. -/
structure OpcodeRow where
  mnemonic : String
  pattern : Word
  mask : Word
  deriving DecidableEq, Repr

/-- A word selects a row when the row's pattern equals the masked word (R92). -/
def OpcodeRow.selects (r : OpcodeRow) (w : Word) : Bool := w &&& r.mask == r.pattern

/-- The opcode map as R92 prints it. -/
def opcodeMap : List OpcodeRow :=
  [ ⟨"NOP", 0x00000000#32, 0xFFFFFFFF#32⟩,
    ⟨"WRCFG", 0x01000000#32, 0xFF000000#32⟩,
    ⟨"RDREG", 0x02000000#32, 0xFF00FFFF#32⟩,
    ⟨"CONV_START", 0x10000000#32, 0xFFFFFFFF#32⟩,
    ⟨"CONV_LINE", 0x11000000#32, 0xFFFFFFFF#32⟩,
    ⟨"SINK_INIT", 0x20000000#32, 0xFFFFFFFF#32⟩,
    ⟨"PUSH", 0x21000000#32, 0xFFFFFF00#32⟩,
    ⟨"SINK_FINAL", 0x22000000#32, 0xFFFFFFFF#32⟩ ]

/-- The commands an assembler line stands for, in order (R100, R101). -/
def AsmLine.expand : AsmLine → List Instr
  | .nop => [.nop]
  | .wrcfg reg val => [.wrcfg (BitVec.ofNat 8 reg) (BitVec.ofNat 16 val)]
  | .rdreg reg => [.rdreg (BitVec.ofNat 8 reg)]
  | .convStart => [.convStart]
  | .convLine => [.convLine]
  | .sinkInit => [.sinkInit]
  | .push byte => [.push (BitVec.ofNat 8 byte)]
  | .sinkFinal => [.sinkFinal]
  | .setFrame fmt w h pad =>
    [.wrcfg 0x01#8 (BitVec.ofNat 16 fmt), .wrcfg 0x02#8 (BitVec.ofNat 16 w),
     .wrcfg 0x03#8 (BitVec.ofNat 16 h), .wrcfg 0x04#8 (BitVec.ofNat 16 pad)]
  | .pushN b0 rest => (b0 :: rest).map fun b => .push (BitVec.ofNat 8 b)

/-- `n` copies of a list of commands, in order. -/
def repeatCommands (n : Nat) (cmds : List Instr) : List Instr := (List.replicate n cmds).flatten

/-- The commands a script stands for, in order (R101). -/
def Script.expand : Script → List Instr
  | .nil => []
  | .line l rest => l.expand ++ rest.expand
  | .rep n body rest => repeatCommands n body.expand ++ rest.expand

end Sys2Proof
end

