-- ==== Sys2Proof/Config.lean ====
section
/-! DEFINITION. What is fixed for the life of one block: the constants the spec gives
(spec/00_scope.md R6, R7) and the two parameters it leaves OPEN to the platform, PLANE_CAP and
DST_LIMIT (R7, R20, spec/92_eei_decisions.md D14, D15). -/

namespace Sys2Proof

/-- The two OPEN parameters of a block (R7, R241).  They are no architectural state (R20): every step
carries them unchanged.  A state names the block it belongs to by them, so that a statement over all
states is a statement over all blocks. -/
structure Config where
  /-- PLANE_CAP: bytes of the intermediate RGB plane memory, any natural number (D14). -/
  planeCap : Nat
  /-- DST_LIMIT: the largest size the destination can grow to, at most 2^32 - 1 (D15). -/
  dstLimit : BitVec 32
  deriving DecidableEq, Repr, Inhabited

/-- The parameters of the platform's block.  FREE VALUE: no body, so nothing can be proved of the two
numbers beyond their types (assumption log 2). -/
opaque Config.platform : Config

/-- STG_CAPACITY: bytes of the staging block (R6, spec/90_conflicts.md C6). -/
@[simp] def Config.stgCapacity : Nat := 4096

/-- LINE_CAP: bytes of the LINE buffer, 3 * 65535 (R7). -/
@[simp] def Config.lineCap : Nat := 196605

/-- The size of the SRC space: addresses need at most 34 bits (R7 ADDR_BITS, R30). -/
@[simp] def Config.srcSpace : Nat := 2 ^ 34

/-- The destination format tag that means "JPEG" (spec/30_encoding.md R96, D6). -/
def Config.jpegTag : Half := 0x0010#16

end Sys2Proof
end

