-- ==== Sys2Proof/Machine/State.lean ====
section
/-! DEFINITION. The architectural state of the block (spec/10_state.md R20 to R33), the reasons a step can
stop, the moves of the outside agents (spec/70_reset_and_hazards.md R247) and the reset state (R33). -/

namespace Sys2Proof.Machine

/-- CPHASE, the converter's phase (R24).  The code 3, never produced, has no name here. -/
inductive CPhase where
  | idle | active | done
  deriving DecidableEq, Repr

/-- SPHASE, the sink's phase (R24).  The code 3, never produced, has no name here. -/
inductive SPhase where
  | idle | opened | done
  deriving DecidableEq, Repr

/-- The three causes of a fault (spec/60_exceptions.md R200). -/
inductive Cause where
  | unsupportedFormat | encodeOOM | contractViolation
  deriving DecidableEq, Repr

/-- What a fault records: its cause and the opcode byte of the word that faulted (R25, R200). -/
structure FaultRecord where
  cause : Cause
  op : Byte
  deriving DecidableEq, Repr

/-- The five byte-addressed spaces (R30). -/
inductive Space where
  | src | plane | line | stg | dst
  deriving DecidableEq, Repr

/-- The contents of one space: the bytes that hold a value, addresses strictly rising.  An address not
listed holds NO value (R33, spec/93_implementation_defined.md U1 to U3; assumption log 3). -/
abbrev Memory := List Host.Cell

/-- What an outside agent can do that changes anything (R247; the moves that only look are in
Machine/HostMoves.lean). -/
inductive Move where
  /-- the host or the engine presents one command word (R91) -/
  | command (w : Word)
  /-- the host writes SRC bytes from an address on (R30, R247) -/
  | hostWriteSrc (addr : Nat) (bytes : List Byte)
  /-- the platform asserts reset between two commands (R230) -/
  | reset
  /-- the platform asserts reset while the command `w` is in progress, which abandons it (R230) -/
  | resetDuring (w : Word)
  deriving DecidableEq, Repr

/-- The state of the block: the twelve registers of R23 (STATUS as the parts R25 packs into it), the five
memories of R30, and, beside them and no architectural state of the spec's, the block's parameters and its
two ports. -/
structure State where
  /-- STATUS.CPHASE (R24, R25) -/
  cphase : CPhase
  /-- STATUS.SPHASE (R24, R25) -/
  sphase : SPhase
  /-- STATUS.FAULT, CAUSE and FAULT_OP: `none` while FAULT = 0 (R25, R204) -/
  latch : Option FaultRecord
  /-- 0x01 SRC_FORMAT (R26) -/
  srcFormat : Half
  /-- 0x02 SRC_WIDTH (R27) -/
  srcWidth : Half
  /-- 0x03 SRC_HEIGHT (R27) -/
  srcHeight : Half
  /-- 0x04 SRC_PADDING (R28) -/
  srcPadding : Half
  /-- 0x05 NEXT_ROW (R22) -/
  nextRow : Half
  /-- 0x06 STG_REMAINING, 13 bits (R23) -/
  stgRemaining : BitVec 13
  /-- 0x07 DST_USED (R29) -/
  dstUsed : BitVec 32
  /-- 0x08 DST_CAP (R29) -/
  dstCap : BitVec 32
  /-- 0x09 DST_FORMAT (R23) -/
  dstFormat : Half
  /-- 0x0A DST_WIDTH (R23) -/
  dstWidth : Half
  /-- 0x0B DST_HEIGHT (R23) -/
  dstHeight : Half
  /-- the source frame, the host's (R30) -/
  src : Memory
  /-- the intermediate RGB plane (R30) -/
  plane : Memory
  /-- the scanline handed to the engine (R30) -/
  line : Memory
  /-- the staging block (R30) -/
  stg : Memory
  /-- the destination's contents (R30) -/
  dst : Memory
  /-- PLANE_CAP and DST_LIMIT of this block; no step changes them (R7, R20; assumption log 2) -/
  cfg : Config
  /-- the model's own: the moves the outside agents will make, in their one total order (R5, R91) -/
  inbox : List Move
  /-- the model's own: the words placed on the response port so far, the latest last (R10 `respond`) -/
  responses : List Word
  /-- the model's own: an encode has completed (R242) since the last SINK_INIT or reset, so DST[0 .. DST_USED - 1] is
  its result, which the host may read (R247); no rule of the block reads it (assumption log 9) -/
  resultReady : Bool
  deriving DecidableEq, Repr

/-- Why the model stops where the spec gives a command no effect.  None of these is one of the block's
faults: those are latched in STATUS and the block goes on (R204). -/
inductive Fault where
  /-- CONV_START (semi-planar) or CONV_LINE (the other formats) reads a SRC byte the host has not provided.
  The spec: "has no defined value" (R66), `stuck` (U3).  Safe. -/
  | srcNotProvided
  /-- CONV_LINE reads a PLANE byte, or PUSH or SINK_FINAL a STG byte, that holds no value (U1).  No state
  that meets `BlockInv` raises it.  Safe. -/
  | scratchUnspecified (space : Space)
  /-- PUSH with STG_REMAINING outside 1 .. 4096 or SINK_FINAL with more than 4096: the pseudocode's STG
  address or count would be outside the staging block.  No state that meets `BlockInv` raises it (R32).  Safe. -/
  | stagingLevelImpossible
  /-- CONV_LINE in C_ACTIVE with an unsupported SRC_FORMAT: "No other value of f can reach CONV_LINE"
  (R125).  No state that meets `BlockInv` raises it.  Safe. -/
  | formatImpossible
  deriving DecidableEq, Repr

/-- Why the model refuses a move or a look of an outside agent (U1, U4: `refuse`). -/
inductive Refusal where
  /-- raised by exec for an instruction that has no meaning yet.  Safe. -/
  | notModelled (mnemonic : String)
  /-- the host writes SRC while CPHASE = C_ACTIVE, a move it does not have (R30, R247, U4: `refuse`).  Safe. -/
  | srcWriteMidFrame
  /-- the host writes SRC at 2^34 or above, where there is no SRC (R30).  Safe. -/
  | srcAddressOutside
  /-- the host reads DST as the result with no encode completed by R242 since the last SINK_INIT, or after a fault
  (R247, R243 item 3, R205, U4: `refuse`, U5).  Safe. -/
  | readOutsideWindow
  /-- the engine or the host reads a byte that holds no value, or the host a DST byte at DST_USED or above (U1:
  `refuse`, U2).  Safe. -/
  | byteUnspecified
  deriving DecidableEq, Repr

/-- The state right after reset (R33, R231): every register at its reset value, no byte of any memory holding
a value, no move pending and no response given. -/
def State.reset : State where
  cphase := .idle
  sphase := .idle
  latch := none
  srcFormat := 0x0000#16
  srcWidth := 0x0000#16
  srcHeight := 0x0000#16
  srcPadding := 0x0000#16
  nextRow := 0x0000#16
  stgRemaining := 0x1000#13
  dstUsed := 0x00000000#32
  dstCap := 0x00000000#32
  dstFormat := 0x0000#16
  dstWidth := 0x0000#16
  dstHeight := 0x0000#16
  src := []
  plane := []
  line := []
  stg := []
  dst := []
  cfg := Config.platform
  inbox := []
  responses := []
  resultReady := false

end Sys2Proof.Machine
end

