-- ==== Sys2Proof/Machine/Flags.lean ====
section
/-! DEFINITION. The register STATUS (spec/10_state.md R24, R25): the codes of the phases and causes, the
packed word, and the one flag, FAULT.  There are no condition codes (R25). -/

namespace Sys2Proof.Machine

/-- STATUS.CPHASE: C_IDLE = 0, C_ACTIVE = 1, C_DONE = 2 (R24). -/
def cphaseCode : CPhase → BitVec 2
  | .idle => 0#2
  | .active => 1#2
  | .done => 2#2

/-- STATUS.SPHASE: S_IDLE = 0, S_OPEN = 1, S_DONE = 2 (R24). -/
def sphaseCode : SPhase → BitVec 2
  | .idle => 0#2
  | .opened => 1#2
  | .done => 2#2

/-- STATUS.CAUSE of a recorded fault (R25, R200); 0 is "none". -/
def causeCode : Cause → BitVec 3
  | .unsupportedFormat => 1#3
  | .encodeOOM => 2#3
  | .contractViolation => 3#3

/-- STATUS.FAULT (R25); the level of the output `fault_o` (spec/60_exceptions.md R207). -/
def State.faulted (s : State) : Bool := s.latch.isSome

/-- An encode has completed successfully: no fault, C_DONE and S_DONE (spec/70_reset_and_hazards.md R242). -/
def encodeCompleted (s : State) : Bool :=
  !s.faulted && decide (s.cphase = .done) && decide (s.sphase = .done)

/-- STATUS bits 4, 7:5 and 15:8 as {FAULT_OP, CAUSE, FAULT} (R25). -/
def latchBits : Option FaultRecord → BitVec 12
  | none => 0#12
  | some r => r.op ++ causeCode r.cause ++ 1#1

/-- STATUS, register 0x00, 16 bits wide: {FAULT_OP, CAUSE, FAULT, SPHASE, CPHASE} (R25). -/
def statusWord (s : State) : Half := latchBits s.latch ++ sphaseCode s.sphase ++ cphaseCode s.cphase

end Sys2Proof.Machine
end

