-- ==== Sys2Proof/Machine/Operands.lean ====
section
/-! DEFINITION. Operands: registers by index (spec/10_state.md R23), format tags (spec/30_encoding.md R96),
and every address the rules compute (spec/20_memory.md R65 to R70).  Addresses are natural numbers: no
address computation wraps (spec/00_scope.md R7). -/

namespace Sys2Proof.Machine

/-- The register an index names; an index not listed is undefined (R23). -/
def regOfIndex (i : Byte) : Option RegName :=
  match i.toNat with
  | 0x00 => some .status
  | 0x01 => some .srcFormat
  | 0x02 => some .srcWidth
  | 0x03 => some .srcHeight
  | 0x04 => some .srcPadding
  | 0x05 => some .nextRow
  | 0x06 => some .stgRemaining
  | 0x07 => some .dstUsed
  | 0x08 => some .dstCap
  | 0x09 => some .dstFormat
  | 0x0A => some .dstWidth
  | 0x0B => some .dstHeight
  | _ => none

/-- The registers marked RW in R23. -/
def hostMayWrite : RegName → Bool
  | .srcFormat | .srcWidth | .srcHeight | .srcPadding => true
  | .status | .nextRow | .stgRemaining | .dstUsed | .dstCap | .dstFormat | .dstWidth | .dstHeight => false

/-- The value of a register as the response port shows it: 32 bits, zero above the register's width (R23). -/
def regValue (r : RegName) (s : State) : Word :=
  match r with
  | .status => (statusWord s).setWidth 32
  | .srcFormat => s.srcFormat.setWidth 32
  | .srcWidth => s.srcWidth.setWidth 32
  | .srcHeight => s.srcHeight.setWidth 32
  | .srcPadding => s.srcPadding.setWidth 32
  | .nextRow => s.nextRow.setWidth 32
  | .stgRemaining => s.stgRemaining.setWidth 32
  | .dstUsed => s.dstUsed
  | .dstCap => s.dstCap
  | .dstFormat => s.dstFormat.setWidth 32
  | .dstWidth => s.dstWidth.setWidth 32
  | .dstHeight => s.dstHeight.setWidth 32

/-- The word RDREG responds for an index: the register's value, 0 for an undefined index
(spec/40_port_and_config.md R113). -/
def readIndex (i : Byte) (s : State) : Word :=
  match regOfIndex i with
  | some r => regValue r s
  | none => 0x00000000#32

/-- The host's write of a configuration register (R112).  The other registers are read-only to the host and
stay (R23). -/
def writeConfig (r : RegName) (val : Half) (s : State) : State :=
  match r with
  | .srcFormat => { s with srcFormat := val }
  | .srcWidth => { s with srcWidth := val }
  | .srcHeight => { s with srcHeight := val }
  | .srcPadding => { s with srcPadding := val }
  | .status | .nextRow | .stgRemaining | .dstUsed | .dstCap | .dstFormat | .dstWidth | .dstHeight => s

/-- The format a tag stands for; every other tag is unsupported (R96). -/
def formatOfTag (tag : Half) : Option Format :=
  match tag.toNat with
  | 0x0001 => some .yuyv
  | 0x0002 => some .uyvy
  | 0x0003 => some .rgb565
  | 0x0004 => some .rgb24
  | 0x0005 => some .bgr24
  | 0x0006 => some .nv12
  | 0x0007 => some .nv16
  | 0x0008 => some .nv24
  | _ => none

/-- The formats converted whole by CONV_START (R96). -/
def semiPlanar : Format → Bool
  | .nv12 | .nv16 | .nv24 => true
  | .yuyv | .uyvy | .rgb565 | .rgb24 | .bgr24 => false

/-- The formats in which two neighbours in a row share a chroma pair (spec/41_converter_control.md R123). -/
def sharesColumns : Format → Bool
  | .yuyv | .uyvy | .nv12 | .nv16 => true
  | .rgb565 | .rgb24 | .bgr24 | .nv24 => false

/-- The format in which two rows share a chroma row (R123). -/
def sharesRows : Format → Bool
  | .nv12 => true
  | .yuyv | .uyvy | .rgb565 | .rgb24 | .bgr24 | .nv16 | .nv24 => false

/-- `bytes_per_pixel` of the five formats that have one (R65); 0 for the semi-planar ones, which have none
and never ask. -/
def bytesPerPixel : Format → Nat
  | .yuyv | .uyvy | .rgb565 => 2
  | .rgb24 | .bgr24 => 3
  | .nv12 | .nv16 | .nv24 => 0

/-- `stride = SRC_WIDTH * bytes_per_pixel + SRC_PADDING` (R65). -/
def stride (f : Format) (w pad : Nat) : Nat := w * bytesPerPixel f + pad

/-- `row_base(y) = y * stride` (R65). -/
def rowBase (f : Format) (w pad y : Nat) : Nat := y * stride f w pad

/-- The group of two pixels that holds pixel `x` of a packed 4:2:2 row (R97, R143). -/
def groupBase (f : Format) (w pad x y : Nat) : Nat := rowBase f w pad y + 4 * (x / 2)

/-- The luma sample of pixel (x, y) of a semi-planar frame (R67). -/
def lumaAddr (w x y : Nat) : Nat := y * w + x

/-- The U sample used for pixel (x, y) of a semi-planar frame; V is at the next address (R68, R162 to R164).
The five other formats have no chroma plane and never ask. -/
def chromaAddr (f : Format) (w h x y : Nat) : Nat :=
  match f with
  | .nv12 => w * h + (y / 2) * w + 2 * (x / 2)
  | .nv16 => w * h + y * w + 2 * (x / 2)
  | .nv24 => w * h + y * 2 * w + 2 * x
  | .yuyv | .uyvy | .rgb565 | .rgb24 | .bgr24 => w * h

/-- The first byte of the triplet of pixel (x, y) in PLANE (R69). -/
def planeAddr (w x y : Nat) : Nat := 3 * (y * w + x)

/-- The first byte of the triplet of pixel x in LINE (R69). -/
def lineAddr (x : Nat) : Nat := 3 * x

/-- `src_extent`: the SRC bytes the host must provide for a frame (R66). -/
def srcExtent (f : Format) (w h pad : Nat) : Nat :=
  match f with
  | .yuyv | .uyvy | .rgb565 => h * (2 * w + pad)
  | .rgb24 | .bgr24 => h * (3 * w + pad)
  | .nv12 => w * h + w * (h / 2)
  | .nv16 => w * h + w * h
  | .nv24 => w * h + 2 * w * h

end Sys2Proof.Machine
end

