-- ==== Sys2Proof/Machine/Ops.lean ====
section
/-! DEFINITION. The operations the commands share: bytes of a memory (spec/00_scope.md R10), entering the
fault state and leaving it by reset (spec/60_exceptions.md R204 to R206, spec/70_reset_and_hazards.md R230),
and the append sequence (spec/44_sink.md R184). -/

namespace Sys2Proof.Machine

/-- How a command ends. -/
abbrev Result := Host.Outcome State Fault Refusal

/-! ### Memories -/

/-- The one canonical form of a memory: addresses strictly rising (so none is listed twice).  An unlisted
address holds no value, so no cell can equal what an unlisted address reads as. -/
abbrev Memory.wf (m : Memory) : Prop := m.Pairwise fun c d => c.1 < d.1

/-- `MemRead(S, a, 1)` (R10): the byte at an address, `none` where it holds no value. -/
def readByte : Memory → Nat → Option Byte
  | [], _ => none
  | c :: m, a => if c.1 = a then some c.2 else readByte m a

/-- Bytes as cells from an address on. -/
def cellsFrom (a : Nat) : List Byte → Memory
  | [] => []
  | b :: bs => (a, b) :: cellsFrom (a + 1) bs

/-- `MemWrite(S, a + i, 1, bs[i])` for every i (R10): the cells below, the bytes, the cells above. -/
def storeBytes (m : Memory) (a : Nat) (bs : List Byte) : Memory :=
  m.filter (fun c => decide (c.1 < a)) ++ cellsFrom a bs
    ++ m.filter (fun c => decide (a + bs.length ≤ c.1))

/-- The values of a list of options if all are there. -/
def allSome {α : Type} : List (Option α) → Option (List α)
  | [] => some []
  | none :: _ => none
  | some x :: xs =>
    match allSome xs with
    | some ys => some (x :: ys)
    | none => none

/-- The `n` bytes from an address on, `none` if one of them holds no value. -/
def loadBytes (m : Memory) (a n : Nat) : Option (List Byte) :=
  allSome ((List.range n).map fun i => readByte m (a + i))

/-- The memory of a space (R30). -/
def spaceOf (sp : Space) (s : State) : Memory :=
  match sp with
  | .src => s.src
  | .plane => s.plane
  | .line => s.line
  | .stg => s.stg
  | .dst => s.dst

/-- The byte of a space of the state at an address. -/
def peek (s : State) (sp : Space) (a : Nat) : Option Byte := readByte (spaceOf sp s) a

/-! ### The fault state -/

/-- `raise Fault(c)` during a command with opcode byte `op` (R204): FAULT, CAUSE and FAULT_OP are recorded in
STATUS and NOTHING else changes.  There is no handler: the block goes on, in the fault state. -/
def raiseFault (c : Cause) (op : Byte) (s : State) : Result := .next { s with latch := some ⟨c, op⟩ }

/-- A command other than NOP and RDREG: "if STATUS.FAULT = 1: no effect" (R110, R205), else `r`. -/
def unlessFaulted (s : State) (r : Result) : Result := if s.faulted then .next s else r

/-- An illegal word (spec/30_encoding.md R94): ContractViolation with the word's own opcode byte, or nothing in
the fault state. -/
def rejectWord (w : Word) (s : State) : Result :=
  unlessFaulted s (raiseFault .contractViolation (opField w) s)

/-- Reset, the only way out of the fault state (R206, R230): every register at its reset value; PLANE, LINE and
STG hold no value any more, SRC and DST are the host's and stay (R33).  The block's parameters and what stands on
its two ports are the outside's and stay. -/
def resetBlock (s : State) : State :=
  { State.reset with
    src := s.src, dst := s.dst, cfg := s.cfg, inbox := s.inbox, responses := s.responses }

/-- The commands whose rule writes DST (R30). -/
def mayWriteDst : Instr → Bool
  | .push _ | .sinkFinal => true
  | .nop | .wrcfg _ _ | .rdreg _ | .convStart | .convLine | .sinkInit => false

/-- Reset in the middle of the command `w` (R230): the command is abandoned and may have written any subset of
the bytes its rule writes, so DST too holds no value any more if that rule writes DST. -/
def resetAbandoning (w : Word) (s : State) : State :=
  match decode w with
  | .ok i => if mayWriteDst i then { resetBlock s with dst := [] } else resetBlock s
  | .error _ => resetBlock s

/-! ### Completed encodes -/

/-- The last effect of the two commands that can complete an encode, CONV_LINE and SINK_FINAL: note it if this is the
end of one (spec/70_reset_and_hazards.md R242). -/
def noteCompletion (s : State) : State := { s with resultReady := s.resultReady || encodeCompleted s }

/-! ### The append sequence -/

/-- `u + n > DST_LIMIT` fails: the destination can take `n` more bytes (R184). -/
def appendFits (n : Nat) (s : State) : Bool := decide (s.dstUsed.toNat + n ≤ s.cfg.dstLimit.toNat)

/-- The writes of `append(n)` once the test has passed (R184): DST grows to exactly `u + n` if it is smaller,
the bytes go to DST[u ..] and DST_USED advances by their number. -/
def appendBytes (bs : List Byte) (s : State) : State :=
  let v := s.dstUsed.toNat + bs.length
  { s with
    dstCap := if s.dstCap.toNat < v then BitVec.ofNat 32 v else s.dstCap
    dst := storeBytes s.dst s.dstUsed.toNat bs
    dstUsed := BitVec.ofNat 32 v }

/-- `append(n)` after its test: the first `n` staged bytes are appended, then `k` says what is left to do.
The model stops by name where one of them holds no value (U1). -/
def appendStaged (n : Nat) (s : State) (k : State → State) : Result :=
  match loadBytes s.stg 0 n with
  | some bs => .next (k (appendBytes bs s))
  | none => .fault (.scratchUnspecified .stg)

end Sys2Proof.Machine
end

