-- ==== Sys2Proof/Machine/Formats.lean ====
section
/-! DEFINITION. Pixel conversion: the two colour functions (spec/42_formats_packed.md R141,
spec/43_formats_semiplanar.md R161), which must stay different (R166), and the triplet of one pixel for each
of the eight formats (R143 to R147, R160 to R165).  Arithmetic is in unbounded integers (R8). -/

namespace Sys2Proof.Machine

/-- Three bytes R, G, B (R11). -/
structure Triplet where
  r : Byte
  g : Byte
  b : Byte
  deriving DecidableEq, Repr

/-- The bytes of a triplet in memory order: R at the lowest address (R60, R69). -/
def tripletBytes (t : Triplet) : List Byte := [t.r, t.g, t.b]

/-- The bytes of a row or plane of triplets, no gaps (R69). -/
def rowBytes (ts : List Triplet) : List Byte := (ts.map tripletBytes).flatten

/-- `clamp8(v)` (R9). -/
def clamp8 (v : Int) : Byte :=
  if v < 0 then 0#8 else if 255 < v then 255#8 else BitVec.ofNat 8 v.toNat

/-- `a >> n` = floor(a / 2^n), for negative `a` too (R9, D20). -/
def shiftRight (a : Int) (n : Nat) : Int := a / 2 ^ n

/-- An unsigned byte as an integer (R8). -/
def byteInt (b : Byte) : Int := (b.toNat : Int)

/-! ### `yuv_full`, the packed path (R141) -/

/-- `Y + 359*V` before the shift. -/
def fullR (y8 v8 : Byte) : Int := byteInt y8 * 2 ^ 8 + 359 * (byteInt v8 - 128)

/-- `Y - 88*U - 183*V` before the shift. -/
def fullG (y8 u8 v8 : Byte) : Int :=
  byteInt y8 * 2 ^ 8 - 88 * (byteInt u8 - 128) - 183 * (byteInt v8 - 128)

/-- `Y + 454*U` before the shift. -/
def fullB (y8 u8 : Byte) : Int := byteInt y8 * 2 ^ 8 + 454 * (byteInt u8 - 128)

/-- `yuv_full(y8, u8, v8)`: full-range luma, no rounding term (R141). -/
def yuvFull (y8 u8 v8 : Byte) : Triplet where
  r := clamp8 (shiftRight (fullR y8 v8) 8)
  g := clamp8 (shiftRight (fullG y8 u8 v8) 8)
  b := clamp8 (shiftRight (fullB y8 u8) 8)

/-! ### `yuv_limited`, the semi-planar path (R161) -/

/-- `298*C + 409*E + 128` before the shift. -/
def limitedR (y8 v8 : Byte) : Int := 298 * (byteInt y8 - 16) + 409 * (byteInt v8 - 128) + 128

/-- `298*C - 100*D - 208*E + 128` before the shift. -/
def limitedG (y8 u8 v8 : Byte) : Int :=
  298 * (byteInt y8 - 16) - 100 * (byteInt u8 - 128) - 208 * (byteInt v8 - 128) + 128

/-- `298*C + 516*D + 128` before the shift. -/
def limitedB (y8 u8 : Byte) : Int := 298 * (byteInt y8 - 16) + 516 * (byteInt u8 - 128) + 128

/-- `yuv_limited(y8, u8, v8)`: footroom correction and round-to-nearest (R161). -/
def yuvLimited (y8 u8 v8 : Byte) : Triplet where
  r := clamp8 (shiftRight (limitedR y8 v8) 8)
  g := clamp8 (shiftRight (limitedG y8 u8 v8) 8)
  b := clamp8 (shiftRight (limitedB y8 u8) 8)

/-! ### RGB565 (R98, R145) -/

/-- `p = hi * 256 + lo`: little-endian (R60, R98). -/
def rgb565Word (lo hi : Byte) : Half := hi ++ lo

/-- The 5/6/5 fields scaled to 8 bits by masking and shifting; no bit is replicated (R98, C1). -/
def rgb565Triplet (lo hi : Byte) : Triplet where
  r := hi &&& 0xF8#8
  g := ((rgb565Word lo hi &&& 0x07E0#16) >>> 3).setWidth 8
  b := (lo &&& 0x1F#8) * 8#8

/-! ### One pixel -/

/-- A triplet made of the bytes at two addresses, `none` if one of them holds no value. -/
def withTwoBytes (m : Memory) (a b : Nat) (k : Byte → Byte → Triplet) : Option Triplet :=
  match readByte m a, readByte m b with
  | some x, some y => some (k x y)
  | _, _ => none

/-- A triplet made of the bytes at three addresses, `none` if one of them holds no value. -/
def withThreeBytes (m : Memory) (a b c : Nat) (k : Byte → Byte → Byte → Triplet) : Option Triplet :=
  match readByte m a, readByte m b, readByte m c with
  | some x, some y, some z => some (k x y z)
  | _, _, _ => none

/-- YUYV: bytes Y0, U, Y1, V of the group (R143). -/
def yuyvPixel (src : Memory) (w pad x y : Nat) : Option Triplet :=
  let g := groupBase .yuyv w pad x y
  withThreeBytes src (g + 2 * (x % 2)) (g + 1) (g + 3) yuvFull

/-- UYVY: bytes U, Y0, V, Y1 of the group (R144). -/
def uyvyPixel (src : Memory) (w pad x y : Nat) : Option Triplet :=
  let g := groupBase .uyvy w pad x y
  withThreeBytes src (g + 1 + 2 * (x % 2)) (g + 0) (g + 2) yuvFull

/-- RGB565: a little-endian 16-bit word (R145). -/
def rgb565Pixel (src : Memory) (w pad x y : Nat) : Option Triplet :=
  let a := rowBase .rgb565 w pad y + 2 * x
  withTwoBytes src a (a + 1) rgb565Triplet

/-- RGB24: bytes R, G, B (R146). -/
def rgb24Pixel (src : Memory) (w pad x y : Nat) : Option Triplet :=
  let a := rowBase .rgb24 w pad y + 3 * x
  withThreeBytes src a (a + 1) (a + 2) Triplet.mk

/-- BGR24: bytes B, G, R (R147). -/
def bgr24Pixel (src : Memory) (w pad x y : Nat) : Option Triplet :=
  let a := rowBase .bgr24 w pad y + 3 * x
  withThreeBytes src (a + 2) (a + 1) a Triplet.mk

/-- `semiplanar_pixel(f, x, y)` (R160). -/
def semiPlanarPixel (f : Format) (src : Memory) (w h x y : Nat) : Option Triplet :=
  let ua := chromaAddr f w h x y
  withThreeBytes src (lumaAddr w x y) ua (ua + 1) yuvLimited

/-- The triplet of pixel (x, y) already in PLANE (R165). -/
def planePixel (plane : Memory) (w x y : Nat) : Option Triplet :=
  let a := planeAddr w x y
  withThreeBytes plane a (a + 1) (a + 2) Triplet.mk

/-- `line_pixel(f, x, y)`: the dispatch by format (R125). -/
def linePixel (f : Format) (s : State) (x y : Nat) : Option Triplet :=
  match f with
  | .yuyv => yuyvPixel s.src s.srcWidth.toNat s.srcPadding.toNat x y
  | .uyvy => uyvyPixel s.src s.srcWidth.toNat s.srcPadding.toNat x y
  | .rgb565 => rgb565Pixel s.src s.srcWidth.toNat s.srcPadding.toNat x y
  | .rgb24 => rgb24Pixel s.src s.srcWidth.toNat s.srcPadding.toNat x y
  | .bgr24 => bgr24Pixel s.src s.srcWidth.toNat s.srcPadding.toNat x y
  | .nv12 | .nv16 | .nv24 => planePixel s.plane s.srcWidth.toNat x y

/-- The triplets of a scanline, x = 0 .. w - 1 (R124). -/
def scanline (f : Format) (s : State) (y : Nat) : Option (List Triplet) :=
  allSome ((List.range s.srcWidth.toNat).map fun x => linePixel f s x y)

/-- The triplets of a semi-planar frame in PLANE's order: number y * w + x is pixel (x, y) (R69, R121). -/
def frameTriplets (f : Format) (src : Memory) (w h : Nat) : Option (List Triplet) :=
  allSome ((List.range (w * h)).map fun i => semiPlanarPixel f src w h (i % w) (i / w))

end Sys2Proof.Machine
end

