-- ==== Sys2Proof/Machine/Converter.lean ====
section
/-! DEFINITION. The converter commands CONV_START and CONV_LINE (spec/41_converter_control.md R120 to R126). -/

namespace Sys2Proof.Machine

/-- The effect CONV_START has on every success: NEXT_ROW is 0 and a frame is in progress (R121). -/
def beginFrame (s : State) : State := { s with nextRow := 0#16, cphase := .active }

/-- CONV_START of a format whose tests have passed (R121): the semi-planar formats are converted whole into
PLANE, the others touch no memory. -/
def startFrame (f : Format) (s : State) : Result :=
  if semiPlanar f then
    match frameTriplets f s.src s.srcWidth.toNat s.srcHeight.toNat with
    | some ts => .next (beginFrame { s with plane := storeBytes s.plane 0 (rowBytes ts) })
    | none => .fault .srcNotProvided
  else .next (beginFrame s)

/-- The fault the dimensions or the capacity raise, in the order R121 tests them. -/
def frameFault (f : Format) (s : State) : Option Cause :=
  let w := s.srcWidth.toNat
  let h := s.srcHeight.toNat
  if w = 0 ∨ h = 0 then some .contractViolation
  else if sharesColumns f ∧ w % 2 = 1 then some .contractViolation
  else if sharesRows f ∧ h % 2 = 1 then some .contractViolation
  else if semiPlanar f ∧ s.cfg.planeCap < 3 * w * h then some .encodeOOM
  else none

/-- CONV_START (R121): the tests in the order written, then the frame. -/
def execConvStart (s : State) : Result :=
  unlessFaulted s <|
    if s.cphase = .active then raiseFault .contractViolation 0x10#8 s
    else
      match formatOfTag s.srcFormat with
      | none => raiseFault .unsupportedFormat 0x10#8 s
      | some f =>
        match frameFault f s with
        | some c => raiseFault c 0x10#8 s
        | none => startFrame f s

/-- CPHASE after the row `y` of `h` rows has been delivered (R120, R124). -/
def phaseAfterRow (y h : Nat) : CPhase := if y + 1 = h then .done else .active

/-- The effect of a delivered scanline (R124): LINE[0 .. 3w - 1], NEXT_ROW and CPHASE. -/
def deliverRow (ts : List Triplet) (s : State) : State :=
  noteCompletion { s with
    line := storeBytes s.line 0 (rowBytes ts)
    nextRow := s.nextRow + 1#16
    cphase := phaseAfterRow s.nextRow.toNat s.srcHeight.toNat }

/-- The name of the stop when a pixel's byte holds no value (U1, U3). -/
def missingByte (f : Format) : Fault := if semiPlanar f then .scratchUnspecified .plane else .srcNotProvided

/-- CONV_LINE (R124): the row NEXT_ROW into LINE. -/
def execConvLine (s : State) : Result :=
  unlessFaulted s <|
    if s.cphase = .active then
      match formatOfTag s.srcFormat with
      | none => .fault .formatImpossible
      | some f =>
        match scanline f s s.nextRow.toNat with
        | some ts => .next (deliverRow ts s)
        | none => .fault (missingByte f)
    else raiseFault .contractViolation 0x11#8 s

end Sys2Proof.Machine
end

