-- ==== Sys2Proof/Machine/Port.lean ====
section
/-! DEFINITION. The port commands NOP, WRCFG and RDREG (spec/40_port_and_config.md R111 to R113). -/

namespace Sys2Proof.Machine

/-- NOP: no effect, in any state (R111). -/
def execNop (s : State) : Result := .next s

/-- WRCFG reg, val (R112): the index is checked before the phase, the value never. -/
def execWrcfg (reg : Byte) (val : Half) (s : State) : Result :=
  unlessFaulted s <|
    match regOfIndex reg with
    | none => raiseFault .contractViolation 0x01#8 s
    | some r =>
      if hostMayWrite r = false then raiseFault .contractViolation 0x01#8 s
      else if s.cphase = .active then raiseFault .contractViolation 0x01#8 s
      else .next (writeConfig r val s)

/-- RDREG reg (R113): a word on the response port and no change of state, in the fault state too. -/
def execRdreg (reg : Byte) (s : State) : Result :=
  .next { s with responses := s.responses ++ [readIndex reg s] }

end Sys2Proof.Machine
end

