-- ==== Sys2Proof/Machine/Sink.lean ====
section
/-! DEFINITION. The sink commands SINK_INIT, PUSH and SINK_FINAL (spec/44_sink.md R180 to R187). -/

namespace Sys2Proof.Machine

/-- SINK_INIT (R181): the sink is bound and logically emptied, and the destination's descriptor written.  No
result stands in DST any more. -/
def execSinkInit (s : State) : Result :=
  unlessFaulted s <|
    if s.sphase = .opened then raiseFault .contractViolation 0x20#8 s
    else
      .next { s with
        dstUsed := 0#32
        stgRemaining := 0x1000#13
        dstFormat := Config.jpegTag
        dstWidth := s.srcWidth
        dstHeight := s.srcHeight
        sphase := .opened
        resultReady := false }

/-- The byte goes to STG[4096 - rem] and one free byte less remains (R182). -/
def stageByte (byte : Byte) (s : State) : State :=
  { s with
    stg := storeBytes s.stg (Config.stgCapacity - s.stgRemaining.toNat) [byte]
    stgRemaining := s.stgRemaining - 1#13 }

/-- The staging block is logically empty again (R182, R185, R186). -/
def emptyStaging (s : State) : State := { s with stgRemaining := 0x1000#13 }

/-- PUSH byte (R182): stage it, and drain the block in the same command if that fills it (R186).  The test for
room in the destination stands before the byte is staged. -/
def execPush (byte : Byte) (s : State) : Result :=
  unlessFaulted s <|
    if s.sphase = .opened then
      if s.stgRemaining.toNat = 0 ∨ Config.stgCapacity < s.stgRemaining.toNat then .fault .stagingLevelImpossible
      else if s.stgRemaining.toNat = 1 then
        if appendFits Config.stgCapacity s then appendStaged Config.stgCapacity (stageByte byte s) emptyStaging
        else raiseFault .encodeOOM 0x21#8 s
      else .next (stageByte byte s)
    else raiseFault .contractViolation 0x21#8 s

/-- The sink is closed (R185). -/
def closeSink (s : State) : State := noteCompletion { emptyStaging s with sphase := .done }

/-- SINK_FINAL (R185): append only the bytes staged since the last drain and close the sink. -/
def execSinkFinal (s : State) : Result :=
  unlessFaulted s <|
    if s.sphase = .opened then
      if Config.stgCapacity < s.stgRemaining.toNat then .fault .stagingLevelImpossible
      else if appendFits (Config.stgCapacity - s.stgRemaining.toNat) s then
        appendStaged (Config.stgCapacity - s.stgRemaining.toNat) s closeSink
      else raiseFault .encodeOOM 0x22#8 s
    else raiseFault .contractViolation 0x22#8 s

end Sys2Proof.Machine
end

