-- ==== Sys2Proof/Machine/Dispatch.lean ====
section
/-! DEFINITION. One arm per command of spec/30_encoding.md R92. -/

namespace Sys2Proof.Machine

def exec (i : Instr) (s : State) : Host.Outcome State Fault Refusal :=
  match i with
  | .nop => Sys2Proof.Machine.execNop s
  | .wrcfg reg val => Sys2Proof.Machine.execWrcfg reg val s
  | .rdreg reg => Sys2Proof.Machine.execRdreg reg s
  | .convStart => Sys2Proof.Machine.execConvStart s
  | .convLine => Sys2Proof.Machine.execConvLine s
  | .sinkInit => Sys2Proof.Machine.execSinkInit s
  | .push byte => Sys2Proof.Machine.execPush byte s
  | .sinkFinal => Sys2Proof.Machine.execSinkFinal s

end Sys2Proof.Machine
end

