-- ==== Sys2Proof/Machine/HostMoves.lean ====
section
/-! DEFINITION. The host's write of SRC, and what the outside agents may look at
(spec/70_reset_and_hazards.md R242, R243, R247; spec/93_implementation_defined.md U1, U2, U4). -/

namespace Sys2Proof.Machine

/-- SRC may be written now: "host only, and only while CPHASE != C_ACTIVE" (R30, R247; assumption log 6). -/
def srcWritable (s : State) : Bool := decide (s.cphase ≠ .active)

/-- The host writes bytes into SRC from an address on (R30, R247).  It is not a command, so the fault state does
not stop it. -/
def hostWriteSrc (addr : Nat) (bytes : List Byte) (s : State) : Result :=
  if Config.srcSpace < addr + bytes.length then .refused .srcAddressOutside
  else if srcWritable s then .next { s with src := storeBytes s.src addr bytes }
  else .refused .srcWriteMidFrame

/-- `fault_o`: equal to STATUS.FAULT at all times (spec/60_exceptions.md R207). -/
def faultOutput (s : State) : Bool := s.faulted

/-- A byte of a memory as an outside agent sees it; one that holds no value is refused (U1, U2). -/
def lookAt (m : Memory) (a : Nat) : Except Refusal Byte :=
  match readByte m a with
  | some b => .ok b
  | none => .error .byteUnspecified

/-- The engine reads LINE[i] (R247).  Between two commands it may always look, in the fault state too (R204): what
the last successful CONV_LINE delivered stays in LINE until the next one or a reset (R126), whatever the other commands
do, and a byte above it keeps what it held (R69).  Only a byte no CONV_LINE has written since reset is refused (U1). -/
def engineReadLine (s : State) (i : Nat) : Except Refusal Byte := lookAt s.line i

/-- The host reads DST[i] as the result: after an encode completed by R242 (R247), until the next SINK_INIT, and with no
fault, for after one nothing in DST may be used (R205, R240 item 6, U5).  A byte at DST_USED or above is unspecified
(R70, U2). -/
def hostReadDst (s : State) (i : Nat) : Except Refusal Byte :=
  if s.faulted = false ∧ s.resultReady = true then
    if i < s.dstUsed.toNat then lookAt s.dst i else .error .byteUnspecified
  else .error .readOutsideWindow

end Sys2Proof.Machine
end

