-- ==== Sys2Proof/Machine/Run.lean ====
section
/-! DEFINITION. One move of an outside agent (spec/30_encoding.md R91, R94, spec/70_reset_and_hazards.md R247),
and a sequence of commands, one after another, for statements about more than one command (R240). -/

namespace Sys2Proof.Machine

/-- A command word on the port: a command is executed to completion, an illegal word rejected (R91, R94). -/
def runWord (w : Word) (s : State) : Result :=
  match decode w with
  | .ok i => exec i s
  | .error _ => rejectWord w s

/-- One move of an outside agent (R247). -/
def takeMove (m : Move) (s : State) : Result :=
  match m with
  | .command w => runWord w s
  | .hostWriteSrc addr bytes => hostWriteSrc addr bytes s
  | .reset => .next (resetBlock s)
  | .resetDuring w => .next (resetAbandoning w s)

/-- Each command executed to completion before the next, in order (R91); the run ends at the first stop. -/
def runCommands : List Instr → State → Result
  | [], s => .next s
  | i :: rest, s =>
    match exec i s with
    | .next t => runCommands rest t
    | .fault f => .fault f
    | .refused r => .refused r

/-- The bytes the PUSH commands of a sequence carry, in order (R183, R187). -/
def pushedBytes : List Instr → List Byte
  | [] => []
  | .push b :: rest => b :: pushedBytes rest
  | .nop :: rest | .wrcfg _ _ :: rest | .rdreg _ :: rest | .convStart :: rest | .convLine :: rest
  | .sinkInit :: rest | .sinkFinal :: rest => pushedBytes rest

end Sys2Proof.Machine
end

