-- ==== Sys2Proof/Machine/Step.lean ====
section
/-! DEFINITION. One step: the block takes the next move of the outside agents.  The block fetches nothing
(spec/00_scope.md R2); the command port stands where other machines fetch (spec/30_encoding.md R91). -/

namespace Sys2Proof.Machine

/-- One step (R91): with no move pending the block waits (R231) and never acts on its own (R207). -/
def step (s : State) : Host.Outcome State Fault Refusal :=
  match s.inbox with
  | [] => .next s
  | m :: rest => takeMove m { s with inbox := rest }

/-- The command word of `nbits` bits presented next on the command port, before any other pending move. -/
def State.withFetchWord (s : State) (nbits w : Nat) : State :=
  { s with inbox := .command (BitVec.ofNat 32 (w % 2 ^ nbits)) :: s.inbox }

end Sys2Proof.Machine
end

