-- ==== Sys2Proof/Safety.lean ====
section
/-! DEFINITION. The terms claims are stated in: the invariant of the state (spec/10_state.md R32), what a
command may write (R23, R30), the fault conditions (spec/60_exceptions.md R200), and the triplets a frame's
scanlines are to hold. -/

namespace Sys2Proof.Machine

/-! ### Reading the state -/

/-- STATUS.FAULT = 0. -/
abbrev Live (s : State) : Prop := s.faulted = false

/-- The index of a register (R23, first column). -/
def registerIndex : RegName → Byte
  | .status => 0x00#8
  | .srcFormat => 0x01#8
  | .srcWidth => 0x02#8
  | .srcHeight => 0x03#8
  | .srcPadding => 0x04#8
  | .nextRow => 0x05#8
  | .stgRemaining => 0x06#8
  | .dstUsed => 0x07#8
  | .dstCap => 0x08#8
  | .dstFormat => 0x09#8
  | .dstWidth => 0x0A#8
  | .dstHeight => 0x0B#8

/-- Every register outside `regs`, every byte of every space outside `spaces`, and both ports are as before,
and so are the block's parameters. -/
structure Untouched (regs : List RegName) (spaces : List Space) (s t : State) : Prop where
  regs : ∀ r, r ∉ regs → regValue r t = regValue r s
  bytes : ∀ sp, sp ∉ spaces → ∀ a, peek t sp a = peek s sp a
  cfg : t.cfg = s.cfg
  inbox : t.inbox = s.inbox
  responses : t.responses = s.responses

/-- The command raises the fault `c` and changes nothing else (R204). -/
def Faults (i : Instr) (s : State) (c : Cause) : Prop :=
  exec i s = .next { s with latch := some ⟨c, i.opByte⟩ }

/-- Three bytes of a memory from an address on are the triplet, R first (R60). -/
def TripletAt (m : Memory) (a : Nat) (p : Triplet) : Prop :=
  readByte m a = some p.r ∧ readByte m (a + 1) = some p.g ∧ readByte m (a + 2) = some p.b

/-- Every byte of a memory below `n` holds a value. -/
def HeldBelow (m : Memory) (n : Nat) : Prop := ∀ a, a < n → (readByte m a).isSome

/-- Every byte a memory holds is below `n`. -/
def WithinSpace (m : Memory) (n : Nat) : Prop := ∀ c ∈ m, c.1 < n

/-! ### The invariant -/

/-- The dimensions CONV_START accepts for a format (spec/41_converter_control.md R122, R123). -/
structure DimensionsFit (f : Format) (w h : Nat) : Prop where
  width : 0 < w
  height : 0 < h
  evenWidth : sharesColumns f → w % 2 = 0
  evenHeight : sharesRows f → h % 2 = 0

/-- What holds of the frame in progress while CPHASE = C_ACTIVE (R32 items 3 and 5, R126): the format and
dimensions CONV_START accepted, a row still to come, a PLANE filled for the semi-planar formats, and the last
scanline in LINE. -/
structure FrameInProgress (f : Format) (s : State) : Prop where
  tag : formatOfTag s.srcFormat = some f
  dims : DimensionsFit f s.srcWidth.toNat s.srcHeight.toNat
  row : s.nextRow.toNat < s.srcHeight.toNat
  plane : semiPlanar f → HeldBelow s.plane (3 * s.srcWidth.toNat * s.srcHeight.toNat)
  line : s.nextRow ≠ 0#16 → HeldBelow s.line (3 * s.srcWidth.toNat)

/-- The invariant of the block between two commands: R32 items 1, 2, 3 and 6, of item 5 that PLANE holds a value in
every byte of the frame in progress (item 4, and item 5 outside C_ACTIVE, do not survive a WRCFG in C_DONE:
assumption log 7), the canonical form and the size of each memory
(R30), that every byte below a fill level holds a value (R182, R29), and that a completed encode is noted, of a closed
sink only (R242). -/
structure BlockInv (s : State) : Prop where
  wf : ∀ sp, (spaceOf sp s).wf
  srcSize : WithinSpace s.src Config.srcSpace
  planeSize : WithinSpace s.plane s.cfg.planeCap
  lineSize : WithinSpace s.line Config.lineCap
  stgSize : WithinSpace s.stg Config.stgCapacity
  dstSize : WithinSpace s.dst s.cfg.dstLimit.toNat
  levelLow : 1 ≤ s.stgRemaining.toNat
  levelHigh : s.stgRemaining.toNat ≤ Config.stgCapacity
  closedEmpty : s.sphase ≠ .opened → s.stgRemaining.toNat = Config.stgCapacity
  usedCap : s.dstUsed.toNat ≤ s.dstCap.toNat
  capLimit : s.dstCap.toNat ≤ s.cfg.dstLimit.toNat
  readyClosed : s.resultReady = true → s.sphase = .done
  completedReady : encodeCompleted s = true → s.resultReady = true
  idleUnused : s.sphase = .idle → s.dstUsed.toNat = 0
  frame : s.cphase = .active → ∃ f, FrameInProgress f s
  staged : HeldBelow s.stg (Config.stgCapacity - s.stgRemaining.toNat)
  written : HeldBelow s.dst s.dstUsed.toNat

/-! ### What a command may write -/

/-- The registers a command may write (the command rules of spec/40 to 44; STATUS holds the phases and the
fault). -/
def regsWritten : Instr → List RegName
  | .nop => []
  | .wrcfg _ _ => [.status, .srcFormat, .srcWidth, .srcHeight, .srcPadding]
  | .rdreg _ => []
  | .convStart => [.status, .nextRow]
  | .convLine => [.status, .nextRow]
  | .sinkInit => [.status, .stgRemaining, .dstUsed, .dstFormat, .dstWidth, .dstHeight]
  | .push _ => [.status, .stgRemaining, .dstUsed, .dstCap]
  | .sinkFinal => [.status, .stgRemaining, .dstUsed, .dstCap]

/-- The spaces a command may write (R30, column "who writes"). -/
def spacesWritten : Instr → List Space
  | .nop => []
  | .wrcfg _ _ => []
  | .rdreg _ => []
  | .convStart => [.plane]
  | .convLine => [.line]
  | .sinkInit => []
  | .push _ => [.stg, .dst]
  | .sinkFinal => [.dst]

/-- The conditions of R200's table: a command raises a fault of the cause when one of them holds and no test
before it fails (spec/60_exceptions.md R208). -/
def raisedWhen (i : Instr) (s : State) (c : Cause) : Prop :=
  let tag := s.srcFormat.toNat
  let w := s.srcWidth.toNat
  let h := s.srcHeight.toNat
  match i, c with
  | .wrcfg reg _, .contractViolation => ¬(1 ≤ reg.toNat ∧ reg.toNat ≤ 4) ∨ s.cphase = .active
  | .convStart, .unsupportedFormat => ¬(1 ≤ tag ∧ tag ≤ 8)
  | .convStart, .encodeOOM => (6 ≤ tag ∧ tag ≤ 8) ∧ s.cfg.planeCap < 3 * w * h
  | .convStart, .contractViolation =>
    s.cphase = .active ∨ w = 0 ∨ h = 0 ∨ (w % 2 = 1 ∧ (tag = 1 ∨ tag = 2 ∨ tag = 6 ∨ tag = 7))
      ∨ (h % 2 = 1 ∧ tag = 6)
  | .convLine, .contractViolation => s.cphase ≠ .active
  | .sinkInit, .contractViolation => s.sphase = .opened
  | .push _, .contractViolation => s.sphase ≠ .opened
  | .push _, .encodeOOM => s.stgRemaining.toNat = 1 ∧ s.cfg.dstLimit.toNat < s.dstUsed.toNat + 4096
  | .sinkFinal, .contractViolation => s.sphase ≠ .opened
  | .sinkFinal, .encodeOOM => s.cfg.dstLimit.toNat < s.dstUsed.toNat + (4096 - s.stgRemaining.toNat)
  | .nop, _ => False
  | .rdreg _, _ => False
  | .wrcfg _ _, _ => False
  | .convLine, _ => False
  | .sinkInit, _ => False
  | .push _, _ => False
  | .sinkFinal, _ => False

/-! ### Frames -/

/-- The triplet that row `y` of the frame in SRC has at `x`, whichever command converts it (R125, R160). -/
def sourcePixel (f : Format) (s : State) (x y : Nat) : Option Triplet :=
  if semiPlanar f then semiPlanarPixel f s.src s.srcWidth.toNat s.srcHeight.toNat x y else linePixel f s x y

/-- The state is ready for a frame of format `f` (spec/70_reset_and_hazards.md R248, premises 1 to 3, for the
converter): no fault, no frame in progress, accepted dimensions, SRC provided up to `src_extent`, and room in
PLANE. -/
structure FrameReady (f : Format) (s : State) : Prop where
  live : Live s
  phase : s.cphase ≠ .active
  tag : formatOfTag s.srcFormat = some f
  dims : DimensionsFit f s.srcWidth.toNat s.srcHeight.toNat
  provided : HeldBelow s.src (srcExtent f s.srcWidth.toNat s.srcHeight.toNat s.srcPadding.toNat)
  capacity : semiPlanar f → 3 * s.srcWidth.toNat * s.srcHeight.toNat ≤ s.cfg.planeCap

end Sys2Proof.Machine
end

