-- ==== Sys2Proof/Certificates/Slice0/Obligations.lean ====
section
/-! DEFINITION. The statements for the provers.  Each docstring names the rule of spec/ it formalises. -/

open Sys2Proof Sys2Proof.Machine

/-! ### Encoding (spec/30_encoding.md) -/

/-- Decoding the word of a command gives the command back, every operand at every value (R90, R92, R93, R100). -/
def Obligations.EncodeThenDecodeGivesTheCommand : Prop := ∀ i : Instr, decode (encode i) = .ok i

/-- Every legal word has one meaning: the word of what it decodes to is that word (R91, R92). -/
def Obligations.DecodeThenEncodeGivesTheWord : Prop :=
  ∀ (w : Word) (i : Instr), decode w = .ok i → encode i = w

/-- R92: a word selects the row whose match equals the masked word; the decoder agrees with the map both ways, with
the operand columns, and no word matches two rows. -/
def Obligations.DecodeFollowsTheOpcodeMap : Prop :=
  (∀ (w : Word) (i : Instr), decode w = .ok i →
      opField w = i.opByte ∧ i.fieldsOf w ∧ ∃ r ∈ opcodeMap, r.mnemonic = i.mnemonic ∧ r.selects w = true) ∧
    (∀ (w : Word), ∀ r ∈ opcodeMap, r.selects w = true → ∃ i, decode w = .ok i ∧ i.mnemonic = r.mnemonic) ∧
    (∀ (w : Word), ∀ r ∈ opcodeMap, ∀ r' ∈ opcodeMap, r.selects w = true → r'.selects w = true → r = r')

/-- R94: exactly which words are illegal, and what presenting one does, with the fault state clear and set.  WRCFG with
any register index is a legal encoding; with an undefined or read-only one its execution faults. -/
def Obligations.IllegalWordsFaultOrAreIgnored : Prop :=
  (∀ w : Word, (∃ why, decode w = .error why) ↔
      (opField w ∉ [0x00#8, 0x01#8, 0x02#8, 0x10#8, 0x11#8, 0x20#8, 0x21#8, 0x22#8]) ∨
      (opField w ∈ [0x00#8, 0x10#8, 0x11#8, 0x20#8, 0x22#8] ∧ w.extractLsb' 0 24 ≠ 0#24) ∨
      (opField w = 0x02#8 ∧ w.extractLsb' 0 16 ≠ 0#16) ∨
      (opField w = 0x21#8 ∧ w.extractLsb' 8 16 ≠ 0#16)) ∧
    (∀ (w : Word) (why : Illegal) (s : State), decode w = .error why → Live s →
      runWord w s = .next { s with latch := some ⟨.contractViolation, w.extractLsb' 24 8⟩ }) ∧
    (∀ (w : Word) (why : Illegal) (s : State), decode w = .error why → s.faulted = true → runWord w s = .next s) ∧
    (∀ (w : Word) (s : State), opField w = 0x01#8 → Live s → ∃ reg val, decode w = .ok (.wrcfg reg val) ∧
      (¬(1 ≤ reg.toNat ∧ reg.toNat ≤ 4) → Faults (.wrcfg reg val) s .contractViolation))

/-- Words written out in spec/95_test_vectors.md V1, and words V1 calls illegal. -/
def Obligations.SpecWordsDecodeAsListed : Prop :=
  decode 0x00000000#32 = .ok .nop ∧ decode 0x01010006#32 = .ok (.wrcfg 1#8 6#16) ∧
    decode 0x0104FFFF#32 = .ok (.wrcfg 4#8 65535#16) ∧ decode 0x02070000#32 = .ok (.rdreg 7#8) ∧
    decode 0x10000000#32 = .ok .convStart ∧ decode 0x11000000#32 = .ok .convLine ∧
    decode 0x20000000#32 = .ok .sinkInit ∧ decode 0x210000D8#32 = .ok (.push 0xD8#8) ∧
    decode 0x22000000#32 = .ok .sinkFinal ∧ decode 0x00000001#32 = .error .reservedBits ∧
    decode 0x21000100#32 = .error .reservedBits ∧ decode 0x12000000#32 = .error .undefinedOpcode

/-- R101: SETFRAME is its four WRCFGs in order; on a block with no fault and no frame in progress they complete, set
the four registers and nothing else. -/
def Obligations.SetFrameWritesTheFourRegisters : Prop :=
  ∀ (s : State) (fmt w h pad : Nat), (AsmLine.setFrame fmt w h pad).wellFormed = true → Live s → s.cphase ≠ .active →
    ∃ t, runCommands (AsmLine.setFrame fmt w h pad).expand s = .next t ∧
      t.srcFormat.toNat = fmt ∧ t.srcWidth.toNat = w ∧ t.srcHeight.toNat = h ∧ t.srcPadding.toNat = pad ∧
      Untouched [.srcFormat, .srcWidth, .srcHeight, .srcPadding] [] s t

/-- R183: a push of several bytes is the single pushes in order, and how the engine groups its bytes has no effect on
any state: two lists of commands that push the same bytes, whatever other commands but SINK_INIT and SINK_FINAL stand
between the pushes, and that run without a fault from one state with the sink open, leave the same sink. -/
def Obligations.PushGroupingHasNoEffect : Prop :=
  (∀ (b : Nat) (bs : List Nat), (AsmLine.pushN b bs).expand = (b :: bs).flatMap fun x => (AsmLine.push x).expand) ∧
    ∀ (s t u : State) (xs ys : List Instr), s.sphase = .opened →
      (∀ i ∈ xs, i ≠ .sinkInit ∧ i ≠ .sinkFinal) → (∀ i ∈ ys, i ≠ .sinkInit ∧ i ≠ .sinkFinal) →
      pushedBytes xs = pushedBytes ys → runCommands xs s = .next t → Live t → runCommands ys s = .next u → Live u →
      u.stgRemaining = t.stgRemaining ∧ u.dstUsed = t.dstUsed ∧ u.dstCap = t.dstCap ∧ u.sphase = t.sphase ∧
        (∀ a, peek u .stg a = peek t .stg a) ∧ ∀ a, peek u .dst a = peek t .dst a

/-! ### The step (R91, R231) -/

/-- A step with a command word pending that decodes to a command is that command on the state without the word. -/
def Obligations.StepRunsTheDecodedCommand : Prop :=
  ∀ (s : State) (w : Word) (rest : List Move) (i : Instr), s.inbox = .command w :: rest → decode w = .ok i →
    step s = exec i { s with inbox := rest }

/-- Presenting a command's word makes the very next step that command (the model's port, log 1). -/
def Obligations.PresentedWordRunsNext : Prop :=
  ∀ (s : State) (i : Instr), step (s.withFetchWord 32 (encode i).toNat) = exec i s

/-- With nothing pending the block waits: it never acts on its own (R207, R231; the model's port, log 1). -/
def Obligations.NothingPendingChangesNothing : Prop := ∀ s : State, s.inbox = [] → step s = .next s

/-! ### Port commands (spec/40_port_and_config.md) -/

/-- R111: NOP leaves every register and memory unchanged in any state, the fault state included; its word is 0, and
any non-zero bit in 23:0 makes the word illegal. -/
def Obligations.NopHasNoEffect : Prop :=
  (∀ s : State, exec .nop s = .next s) ∧ (∀ w : Word, decode w = .ok .nop ↔ w = 0x00000000#32) ∧
    ∀ w : Word, opField w = 0x00#8 → w.extractLsb' 0 24 ≠ 0#24 → ∃ why, decode w = .error why

/-- R113: RDREG responds the register, zero-extended, or 0 for an undefined index, in every state, and changes no
register and no byte of memory.  (The response port is the model's record `responses`, log 8.) -/
def Obligations.RdregRespondsTheRegister : Prop :=
  ∀ (s : State) (reg : Byte), ∃ v : Word,
    exec (.rdreg reg) s = .next { s with responses := s.responses ++ [v] } ∧
      (∀ r, registerIndex r = reg → v = regValue r s) ∧ (0x0C ≤ reg.toNat → v = 0#32)

/-- R112: WRCFG by its pseudocode.  Without a fault it completes exactly for the indices 0x01 .. 0x04 outside C_ACTIVE:
the register then reads the value and nothing else changes. -/
def Obligations.WrcfgWritesOneConfigurationRegister : Prop :=
  ∀ (s : State) (reg : Byte) (val : Half),
    (s.faulted = true → exec (.wrcfg reg val) s = .next s) ∧
    (Live s → ¬(1 ≤ reg.toNat ∧ reg.toNat ≤ 4) → Faults (.wrcfg reg val) s .contractViolation) ∧
    (Live s → s.cphase = .active → Faults (.wrcfg reg val) s .contractViolation) ∧
    (Live s → 1 ≤ reg.toNat → reg.toNat ≤ 4 → s.cphase ≠ .active →
      ∃ t r, exec (.wrcfg reg val) s = .next t ∧ registerIndex r = reg ∧ regValue r t = val.setWidth 32 ∧
        Untouched [r] [] s t)

/-! ### STATUS, reset and the register file (spec/10_state.md) -/

/-- R25: the fields of STATUS, bit by bit, and its zero upper half. -/
def Obligations.StatusFieldsStandWhereListed : Prop :=
  ∀ s : State, let v := regValue .status s
    v.extractLsb' 0 2 = (match s.cphase with | .idle => 0#2 | .active => 1#2 | .done => 2#2) ∧
    v.extractLsb' 2 2 = (match s.sphase with | .idle => 0#2 | .opened => 1#2 | .done => 2#2) ∧
    v.extractLsb' 4 1 = (if s.faulted then 1#1 else 0#1) ∧
    v.extractLsb' 5 3 = (match s.latch with
      | none => 0#3 | some ⟨.unsupportedFormat, _⟩ => 1#3 | some ⟨.encodeOOM, _⟩ => 2#3
      | some ⟨.contractViolation, _⟩ => 3#3) ∧
    v.extractLsb' 8 8 = (match s.latch with | none => 0#8 | some r => r.op) ∧
    v.extractLsb' 16 16 = 0#16

/-- R33: after reset every register is 0 but STG_REMAINING = 4096, and SRC and DST are not changed by it. -/
def Obligations.ResetGivesTheResetValues : Prop :=
  ∀ (s : State) (rest : List Move), s.inbox = .reset :: rest →
    ∃ t, step s = .next t ∧ regValue .stgRemaining t = 4096#32 ∧
      (∀ r, r ≠ .stgRemaining → regValue r t = 0#32) ∧ faultOutput t = false ∧
      (∀ a, peek t .src a = peek s .src a) ∧ (∀ a, peek t .dst a = peek s .dst a) ∧ t.cfg = s.cfg

/-- After either reset no byte of PLANE, LINE or STG holds a value (the model's reading of R33 and U1, log 3), and the
two ports of the model keep what stands on them (the model's choice, logs 1 and 8). -/
def Obligations.ResetForgetsTheScratchMemories : Prop :=
  ∀ (s t : State) (m : Move) (rest : List Move), s.inbox = m :: rest → (m = .reset ∨ ∃ w, m = .resetDuring w) →
    step s = .next t →
    (∀ a, peek t .plane a = none ∧ peek t .line a = none ∧ peek t .stg a = none) ∧
      t.inbox = rest ∧ t.responses = s.responses

/-- R230: a reset that abandons a command leaves the same registers; DST is kept if the word is illegal or its command's
rule does not write DST, and holds no value any more if it does (the model's reading, log 5). -/
def Obligations.ResetInACommandAbandonsIt : Prop :=
  ∀ (s : State) (w : Word) (rest : List Move), s.inbox = .resetDuring w :: rest →
    ∃ t, step s = .next t ∧ (∀ r, regValue r t = regValue r State.reset) ∧ t.src = s.src ∧
      (opField w ≠ 0x21#8 → opField w ≠ 0x22#8 → t.dst = s.dst) ∧
      (∀ why, decode w = .error why → t.dst = s.dst) ∧
      (∀ i, decode w = .ok i → i.opByte = 0x21#8 ∨ i.opByte = 0x22#8 → t.dst = []) ∧ t.cfg = s.cfg

/-- The commands change only the registers and spaces their rules write (R23, R30), and none but RDREG responds. -/
def Obligations.CommandsWriteOnlyWhatTheyOwn : Prop :=
  ∀ (i : Instr) (s t : State), exec i s = .next t → (∀ x, i ≠ .rdreg x) →
    Untouched (regsWritten i) (spacesWritten i) s t

/-- No move of any agent changes the block's parameters (R20). -/
def Obligations.ParametersAreFixedForLife : Prop :=
  ∀ s t : State, step s = .next t → t.cfg = s.cfg

/-- R29: DST_USED never shrinks but by SINK_INIT, which sets it to 0, and DST_CAP never shrinks. -/
def Obligations.DestinationCountersGrow : Prop :=
  ∀ (i : Instr) (s t : State), exec i s = .next t →
    s.dstCap.toNat ≤ t.dstCap.toNat ∧ (s.dstUsed.toNat ≤ t.dstUsed.toNat ∨ (i = .sinkInit ∧ t.dstUsed = 0#32))

/-- R184: a command writes DST only from DST_USED on and below the new DST_USED: bytes already appended are never
rewritten and nothing is written beyond the appended range. -/
def Obligations.AppendWritesOnlyItsOwnRange : Prop :=
  ∀ (i : Instr) (s t : State), exec i s = .next t → ∀ a, peek t .dst a ≠ peek s .dst a →
    s.dstUsed.toNat ≤ a ∧ a < t.dstUsed.toNat

/-! ### Faults (spec/60_exceptions.md) -/

/-- R204: a command word that raises a fault records the cause and its own opcode byte and changes nothing else. -/
def Obligations.FaultEntryIsPrecise : Prop :=
  ∀ (w : Word) (s t : State), Live s → runWord w s = .next t → t.faulted = true →
    ∃ c, t = { s with latch := some ⟨c, opField w⟩ }

/-- R205: in the fault state NOP and RDREG behave as usual and every other word has no effect at all. -/
def Obligations.FaultStateIgnoresOtherWords : Prop :=
  ∀ (w : Word) (s : State), s.faulted = true →
    (∀ x, decode w = .ok (.rdreg x) → runWord w s = .next { s with responses := s.responses ++ [readIndex x s] }) ∧
    ((∀ x, decode w ≠ .ok (.rdreg x)) → runWord w s = .next s)

/-- R206: once a fault is recorded, no move but reset changes what is recorded, and reset restores the whole reset
state of the registers. -/
def Obligations.OnlyResetLeavesTheFaultState : Prop :=
  ∀ s t : State, s.faulted = true → step s = .next t →
    t.latch = s.latch ∨
      ((∃ rest, s.inbox = .reset :: rest ∨ ∃ w, s.inbox = .resetDuring w :: rest) ∧
        ∀ r, regValue r t = regValue r State.reset)

/-- R200: the complete list of faults.  A command raises a fault of a cause only under a condition the table gives that
cause, and whenever a condition of the table holds it raises some fault; an illegal word raises ContractViolation.  NOP
and RDREG never fault (their rows of `raisedWhen` are False).  R32 item 1 rules out staging levels no run reaches. -/
def Obligations.FaultsAreExactlyTheListed : Prop :=
  (∀ (i : Instr) (s : State), Live s → 1 ≤ s.stgRemaining.toNat → s.stgRemaining.toNat ≤ 4096 →
    (∀ c, Faults i s c → raisedWhen i s c) ∧ ((∃ c, raisedWhen i s c) → ∃ c, Faults i s c)) ∧
    ∀ (w : Word) (why : Illegal) (s : State), decode w = .error why → Live s →
      runWord w s = .next { s with latch := some ⟨.contractViolation, opField w⟩ }

/-- R207: the output fault_o equals bit 4 of STATUS at all times. -/
def Obligations.FaultOutputFollowsStatus : Prop :=
  ∀ s : State, faultOutput s = (regValue .status s).getLsbD 4

/-! ### The invariant (R32) -/

/-- The reset state meets the invariant. -/
def Obligations.ResetMeetsTheInvariant : Prop := BlockInv State.reset

/-- Every step keeps the invariant: commands, illegal words, the host's writes and both resets. -/
def Obligations.StepKeepsTheInvariant : Prop := ∀ s t : State, BlockInv s → step s = .next t → BlockInv t

/-- From a state that meets the invariant no step stops for a byte without a value in PLANE or STG, for an impossible
staging level or an impossible format (U1, U12, R125): the only stop of the block is a SRC byte the host has not
provided (U3), and the only refusals are for the host's own moves (U4). -/
def Obligations.InvariantLeavesOnlyTheHostsStops : Prop :=
  ∀ s : State, BlockInv s → (∃ t, step s = .next t) ∨
    (step s = .fault .srcNotProvided ∧ ∃ rest w, s.inbox = .command w :: rest ∧
      (decode w = .ok .convStart ∨ decode w = .ok .convLine)) ∨
    ∃ rest a bs, s.inbox = .hostWriteSrc a bs :: rest ∧
      (step s = .refused .srcWriteMidFrame ∨ step s = .refused .srcAddressOutside)

/-- R32 item 4 as the spec prints it, kept by every step without a fault.  It FAILS: WRCFG SRC_HEIGHT is allowed in
C_DONE (R112), so NEXT_ROW and SRC_HEIGHT part (log 7). -/
def Obligations.DoneMeansNextRowIsHeight : Prop :=
  ∀ s t : State, BlockInv s → Live s → (s.cphase = .done → s.nextRow = s.srcHeight) → step s = .next t → Live t →
    t.cphase = .done → t.nextRow = t.srcHeight

/-! ### Converter control (spec/41_converter_control.md) -/

/-- R120: the table of CPHASE.  A command out of its phase raises ContractViolation and leaves CPHASE; a command that
completes without a fault changes it as listed. -/
def Obligations.ConverterPhasesChangeAsListed : Prop :=
  (∀ s : State, Live s → s.cphase = .active → Faults .convStart s .contractViolation) ∧
    (∀ s : State, Live s → s.cphase ≠ .active → Faults .convLine s .contractViolation) ∧
    (∀ (s : State) (reg : Byte) (val : Half), Live s → s.cphase = .active →
      Faults (.wrcfg reg val) s .contractViolation) ∧
    (∀ (i : Instr) (s t : State), Live s → exec i s = .next t → Live t →
      match i with
      | .convStart => t.cphase = .active
      | .convLine => (s.nextRow.toNat < s.srcHeight.toNat →
          t.cphase = if s.nextRow.toNat + 1 < s.srcHeight.toNat then .active else .done)
      | _ => t.cphase = s.cphase)

/-- R121, R208: the faults of CONV_START in the order tested, each whatever the later tests would say. -/
def Obligations.ConvStartFaultsInOrder : Prop :=
  ∀ s : State, Live s →
    let tag := s.srcFormat.toNat
    let w := s.srcWidth.toNat
    let h := s.srcHeight.toNat
    let supported := 1 ≤ tag ∧ tag ≤ 8
    let badDims := w = 0 ∨ h = 0 ∨ (w % 2 = 1 ∧ (tag = 1 ∨ tag = 2 ∨ tag = 6 ∨ tag = 7)) ∨ (h % 2 = 1 ∧ tag = 6)
    (s.cphase = .active → Faults .convStart s .contractViolation) ∧
    (s.cphase ≠ .active → ¬supported → Faults .convStart s .unsupportedFormat) ∧
    (s.cphase ≠ .active → supported → badDims → Faults .convStart s .contractViolation) ∧
    (s.cphase ≠ .active → supported → ¬badDims → 6 ≤ tag → s.cfg.planeCap < 3 * w * h →
      Faults .convStart s .encodeOOM)

/-- R122: CONV_START with a zero width or height raises ContractViolation (for a supported format, outside C_ACTIVE:
the tests before it, R121). -/
def Obligations.ZeroDimensionsFault : Prop :=
  ∀ s : State, Live s → s.cphase ≠ .active → (∃ f, formatOfTag s.srcFormat = some f) →
    s.srcWidth = 0#16 ∨ s.srcHeight = 0#16 → Faults .convStart s .contractViolation

/-- R121: CONV_START of the five other formats begins the frame at row 0 and touches no memory. -/
def Obligations.ConvStartBeginsAPackedFrame : Prop :=
  ∀ (s : State) (f : Format), FrameReady f s → semiPlanar f = false →
    ∃ t, exec .convStart s = .next t ∧ t.cphase = .active ∧ t.nextRow = 0#16 ∧ t.sphase = s.sphase ∧
      t.latch = none ∧ Untouched [.status, .nextRow] [] s t

/-- R121, R160, R162 to R164: CONV_START of a semi-planar format begins the frame and fills PLANE with the limited-range
conversion of the luma sample and of the chroma pair at the printed addresses; PLANE above the frame is as before. -/
def Obligations.ConvStartConvertsASemiPlanarFrame : Prop :=
  ∀ (s : State) (f : Format), FrameReady f s → semiPlanar f = true →
    let w := s.srcWidth.toNat
    let h := s.srcHeight.toNat
    ∃ t, exec .convStart s = .next t ∧ t.cphase = .active ∧ t.nextRow = 0#16 ∧ t.sphase = s.sphase ∧
      t.latch = none ∧ Untouched [.status, .nextRow] [.plane] s t ∧
      (∀ x y, x < w → y < h →
        let ua := w * h + (match f with
          | .nv12 => (y / 2) * w + 2 * (x / 2)
          | .nv16 => y * w + 2 * (x / 2)
          | _ => y * 2 * w + 2 * x)
        ∃ y8 u8 v8, readByte s.src (y * w + x) = some y8 ∧ readByte s.src ua = some u8 ∧
          readByte s.src (ua + 1) = some v8 ∧ TripletAt t.plane (3 * (y * w + x)) (yuvLimited y8 u8 v8)) ∧
      ∀ a, 3 * w * h ≤ a → peek t .plane a = peek s .plane a

/-- R124: CONV_LINE delivers the row NEXT_ROW: exactly 3w bytes of LINE, NEXT_ROW one further, CPHASE C_DONE after the
last row, and nothing else.  The premise is the invariant and, for the formats read from SRC now, a provided frame. -/
def Obligations.ConvLineDeliversTheNextRow : Prop :=
  ∀ (s : State) (f : Format), BlockInv s → Live s → s.cphase = .active → formatOfTag s.srcFormat = some f →
    (semiPlanar f = false →
      HeldBelow s.src (srcExtent f s.srcWidth.toNat s.srcHeight.toNat s.srcPadding.toNat)) →
    ∃ t, exec .convLine s = .next t ∧ t.nextRow.toNat = s.nextRow.toNat + 1 ∧
      t.cphase = (if s.nextRow.toNat + 1 = s.srcHeight.toNat then .done else .active) ∧ t.sphase = s.sphase ∧
      t.latch = none ∧ Untouched [.status, .nextRow] [.line] s t ∧
      (∀ x, x < s.srcWidth.toNat →
        ∃ p, linePixel f s x s.nextRow.toNat = some p ∧ TripletAt t.line (3 * x) p) ∧
      ∀ a, 3 * s.srcWidth.toNat ≤ a → peek t .line a = peek s .line a

/-- R22: NEXT_ROW is set to 0 by each successful CONV_START, advanced by exactly 1 by each successful CONV_LINE (it
never wraps) and changed by no other command. -/
def Obligations.NextRowCountsTheDeliveredRows : Prop :=
  ∀ (i : Instr) (s t : State), BlockInv s → Live s → exec i s = .next t → Live t →
    match i with
    | .convStart => t.nextRow = 0#16
    | .convLine => t.nextRow.toNat = s.nextRow.toNat + 1
    | _ => t.nextRow = s.nextRow

/-- R120, R126, R242: from a state ready for a frame, CONV_START and then k CONV_LINEs (k at most the height) complete;
NEXT_ROW is k, LINE holds row k - 1 of the frame as it stands in SRC, and the frame is done exactly when k is the
height. -/
def Obligations.FrameDeliversItsRowsInOrder : Prop :=
  ∀ (s : State) (f : Format) (k : Nat), FrameReady f s → k ≤ s.srcHeight.toNat →
    ∃ t, runCommands (.convStart :: List.replicate k .convLine) s = .next t ∧ Live t ∧ t.nextRow.toNat = k ∧
      t.cphase = (if k = s.srcHeight.toNat then .done else .active) ∧ t.src = s.src ∧
      ∀ x, x < s.srcWidth.toNat → 0 < k →
        ∃ p, sourcePixel f s x (k - 1) = some p ∧ TripletAt t.line (3 * x) p

/-! ### Pixel formats (spec/42_formats_packed.md, spec/43_formats_semiplanar.md) -/

/-- R141: the packed-path colour function: the printed formula with floor and clamp, the printed ranges before the
shift, grey as the identity, and the printed examples. -/
def Obligations.PackedColourFunction : Prop :=
  (∀ y8 u8 v8 : Byte,
    let y : Int := y8.toNat
    let u : Int := u8.toNat
    let v : Int := v8.toNat
    ((yuvFull y8 u8 v8).r.toNat : Int) = max 0 (min 255 ((256 * y + 359 * (v - 128)) / 256)) ∧
    ((yuvFull y8 u8 v8).g.toNat : Int) = max 0 (min 255 ((256 * y - 88 * (u - 128) - 183 * (v - 128)) / 256)) ∧
    ((yuvFull y8 u8 v8).b.toNat : Int) = max 0 (min 255 ((256 * y + 454 * (u - 128)) / 256)) ∧
    (-45952 ≤ fullR y8 v8 ∧ fullR y8 v8 ≤ 110873) ∧ (-34417 ≤ fullG y8 u8 v8 ∧ fullG y8 u8 v8 ≤ 99968) ∧
    (-58112 ≤ fullB y8 u8 ∧ fullB y8 u8 ≤ 122938) ∧ yuvFull y8 128#8 128#8 = ⟨y8, y8, y8⟩) ∧
    yuvFull 76#8 84#8 255#8 = ⟨254#8, 0#8, 0#8⟩ ∧ yuvFull 0#8 0#8 0#8 = ⟨0#8, 135#8, 0#8⟩ ∧
    yuvFull 255#8 255#8 255#8 = ⟨255#8, 120#8, 255#8⟩

/-- R161: the semi-planar colour function: the printed formula, ranges, grey cases and examples. -/
def Obligations.SemiPlanarColourFunction : Prop :=
  (∀ y8 u8 v8 : Byte,
    let c : Int := (y8.toNat : Int) - 16
    let d : Int := (u8.toNat : Int) - 128
    let e : Int := (v8.toNat : Int) - 128
    ((yuvLimited y8 u8 v8).r.toNat : Int) = max 0 (min 255 ((298 * c + 409 * e + 128) / 256)) ∧
    ((yuvLimited y8 u8 v8).g.toNat : Int) = max 0 (min 255 ((298 * c - 100 * d - 208 * e + 128) / 256)) ∧
    ((yuvLimited y8 u8 v8).b.toNat : Int) = max 0 (min 255 ((298 * c + 516 * d + 128) / 256)) ∧
    (-56992 ≤ limitedR y8 v8 ∧ limitedR y8 v8 ≤ 123293) ∧
    (-43756 ≤ limitedG y8 u8 v8 ∧ limitedG y8 u8 v8 ≤ 110774) ∧
    (-70688 ≤ limitedB y8 u8 ∧ limitedB y8 u8 ≤ 136882) ∧
    (y8.toNat ≤ 16 → yuvLimited y8 128#8 128#8 = ⟨0#8, 0#8, 0#8⟩) ∧
    (235 ≤ y8.toNat → yuvLimited y8 128#8 128#8 = ⟨255#8, 255#8, 255#8⟩)) ∧
    yuvLimited 128#8 128#8 128#8 = ⟨130#8, 130#8, 130#8⟩ ∧ yuvLimited 81#8 90#8 240#8 = ⟨255#8, 0#8, 0#8⟩ ∧
    yuvLimited 145#8 54#8 34#8 = ⟨0#8, 255#8, 1#8⟩ ∧ yuvLimited 41#8 240#8 110#8 = ⟨0#8, 0#8, 255#8⟩

/-- R166: the two colour functions are different functions: they disagree on the printed bytes (U9). -/
def Obligations.TheTwoColourFunctionsDiffer : Prop :=
  yuvFull 128#8 128#8 128#8 = ⟨128#8, 128#8, 128#8⟩ ∧ yuvLimited 128#8 128#8 128#8 = ⟨130#8, 130#8, 130#8⟩ ∧
    yuvFull 16#8 128#8 128#8 = ⟨16#8, 16#8, 16#8⟩ ∧ yuvLimited 16#8 128#8 128#8 = ⟨0#8, 0#8, 0#8⟩ ∧
    yuvFull 235#8 128#8 128#8 = ⟨235#8, 235#8, 235#8⟩ ∧ yuvLimited 235#8 128#8 128#8 = ⟨255#8, 255#8, 255#8⟩

/-- R142: after clamp8 it cannot be seen whether a shift right by 8 is floor or truncation. -/
def Obligations.FloorAndTruncationClampAlike : Prop :=
  ∀ v : Int, clamp8 (shiftRight v 8) = clamp8 (Int.tdiv v 256)

/-- R98: RGB565 expands each field with zero low bits; no bit is replicated. -/
def Obligations.Rgb565FieldsKeepZeroLowBits : Prop :=
  ∀ lo hi : Byte, let p : Half := hi ++ lo
    rgb565Triplet lo hi = ⟨p.extractLsb' 11 5 ++ 0#3, p.extractLsb' 5 6 ++ 0#2, p.extractLsb' 0 5 ++ 0#3⟩

/-- R143, R144: a delivered YUYV or UYVY row is the packed colour function of the bytes at the printed addresses, both
pixels of a group sharing U and V. -/
def Obligations.PackedYuvRowsReadTheirGroups : Prop :=
  ∀ s t : State, Live s → s.cphase = .active → exec .convLine s = .next t →
    let w := s.srcWidth.toNat
    let base := s.nextRow.toNat * (2 * w + s.srcPadding.toNat)
    (s.srcFormat = 0x0001#16 → ∀ x, x < w → ∃ y8 u8 v8,
      readByte s.src (base + 4 * (x / 2) + 2 * (x % 2)) = some y8 ∧
      readByte s.src (base + 4 * (x / 2) + 1) = some u8 ∧ readByte s.src (base + 4 * (x / 2) + 3) = some v8 ∧
      TripletAt t.line (3 * x) (yuvFull y8 u8 v8)) ∧
    (s.srcFormat = 0x0002#16 → ∀ x, x < w → ∃ y8 u8 v8,
      readByte s.src (base + 4 * (x / 2) + 1 + 2 * (x % 2)) = some y8 ∧
      readByte s.src (base + 4 * (x / 2)) = some u8 ∧ readByte s.src (base + 4 * (x / 2) + 2) = some v8 ∧
      TripletAt t.line (3 * x) (yuvFull y8 u8 v8))

/-- R145 to R147: a delivered RGB565, RGB24 or BGR24 row is made of the bytes at the printed addresses. -/
def Obligations.RgbRowsReadTheirPixels : Prop :=
  ∀ s t : State, Live s → s.cphase = .active → exec .convLine s = .next t →
    let w := s.srcWidth.toNat
    let base := fun n => s.nextRow.toNat * (n * w + s.srcPadding.toNat)
    (s.srcFormat = 0x0003#16 → ∀ x, x < w → ∃ lo hi,
      readByte s.src (base 2 + 2 * x) = some lo ∧ readByte s.src (base 2 + 2 * x + 1) = some hi ∧
      TripletAt t.line (3 * x) (rgb565Triplet lo hi)) ∧
    (s.srcFormat = 0x0004#16 → ∀ i, i < 3 * w →
      readByte t.line i = readByte s.src (base 3 + i)) ∧
    (s.srcFormat = 0x0005#16 → ∀ x, x < w →
      readByte t.line (3 * x) = readByte s.src (base 3 + 3 * x + 2) ∧
      readByte t.line (3 * x + 1) = readByte s.src (base 3 + 3 * x + 1) ∧
      readByte t.line (3 * x + 2) = readByte s.src (base 3 + 3 * x))

/-- R165: a delivered row of a semi-planar frame is the row of PLANE, byte for byte. -/
def Obligations.SemiPlanarRowsCopyPlane : Prop :=
  ∀ s t : State, Live s → s.cphase = .active → exec .convLine s = .next t →
    6 ≤ s.srcFormat.toNat → s.srcFormat.toNat ≤ 8 → ∀ i, i < 3 * s.srcWidth.toNat →
      readByte t.line i = readByte s.plane (3 * s.srcWidth.toNat * s.nextRow.toNat + i)

/-- R66: every SRC byte a conversion reads is below `src_extent`: two sources that agree below it convert alike. -/
def Obligations.ConversionReadsBelowTheExtent : Prop :=
  ∀ (f : Format) (s : State) (m : Memory) (x y : Nat),
    DimensionsFit f s.srcWidth.toNat s.srcHeight.toNat → x < s.srcWidth.toNat → y < s.srcHeight.toNat →
    (∀ a, a < srcExtent f s.srcWidth.toNat s.srcHeight.toNat s.srcPadding.toNat →
      readByte m a = readByte s.src a) →
    sourcePixel f { s with src := m } x y = sourcePixel f s x y

/-- R74, R75: for the five formats read row by row, the scanline is a function of the row's pixel bytes.  Two blocks at
the same row of frames of one format and width, with any paddings, whatever else differs, whose rows have the same pixel
bytes, deliver the same scanline. -/
def Obligations.PaddingNeverLeaksIntoAScanline : Prop :=
  ∀ (s s' t : State) (f : Format), BlockInv s → Live s' → s'.cphase = .active → Live s → s.cphase = .active →
    formatOfTag s.srcFormat = some f → semiPlanar f = false → s'.srcFormat = s.srcFormat →
    s'.srcWidth = s.srcWidth → s'.nextRow = s.nextRow →
    (∀ k, k < s.srcWidth.toNat * bytesPerPixel f →
      readByte s'.src (rowBase f s.srcWidth.toNat s'.srcPadding.toNat s.nextRow.toNat + k)
        = readByte s.src (rowBase f s.srcWidth.toNat s.srcPadding.toNat s.nextRow.toNat + k)) →
    exec .convLine s = .next t →
    ∃ t', exec .convLine s' = .next t' ∧ ∀ a, a < 3 * s.srcWidth.toNat → peek t' .line a = peek t .line a

/-- R73, for the semi-planar formats: once CONV_START has converted a frame, whatever SRC holds afterwards does not
change its scanlines: with any other SRC, CONV_LINE leaves the same state but for SRC itself. -/
def Obligations.LateSourceWritesDoNotReachPlane : Prop :=
  ∀ (s : State) (m : Memory) (f : Format), BlockInv s → Live s → s.cphase = .active →
    formatOfTag s.srcFormat = some f → semiPlanar f = true →
    ∃ t, exec .convLine s = .next t ∧ exec .convLine { s with src := m } = .next { t with src := m }

/-! ### The sink (spec/44_sink.md) -/

/-- R180: the table of SPHASE. -/
def Obligations.SinkPhasesChangeAsListed : Prop :=
  (∀ s : State, Live s → s.sphase = .opened → Faults .sinkInit s .contractViolation) ∧
    (∀ (s : State) (b : Byte), Live s → s.sphase ≠ .opened → Faults (.push b) s .contractViolation) ∧
    (∀ s : State, Live s → s.sphase ≠ .opened → Faults .sinkFinal s .contractViolation) ∧
    (∀ (i : Instr) (s t : State), Live s → exec i s = .next t → Live t →
      t.sphase = match i with
        | .sinkInit => .opened
        | .sinkFinal => .done
        | _ => s.sphase)

/-- R181: SINK_INIT by its pseudocode; no byte of STG or DST is written and DST_CAP is kept. -/
def Obligations.SinkInitBindsAndEmpties : Prop :=
  ∀ s : State,
    (s.faulted = true → exec .sinkInit s = .next s) ∧
    (Live s → s.sphase = .opened → Faults .sinkInit s .contractViolation) ∧
    (Live s → s.sphase ≠ .opened → ∃ t, exec .sinkInit s = .next t ∧
      t.dstUsed = 0#32 ∧ t.stgRemaining.toNat = 4096 ∧ t.dstFormat = 0x0010#16 ∧ t.dstWidth = s.srcWidth ∧
      t.dstHeight = s.srcHeight ∧ t.sphase = .opened ∧ t.cphase = s.cphase ∧ t.latch = none ∧
      Untouched [.status, .dstUsed, .stgRemaining, .dstFormat, .dstWidth, .dstHeight] [] s t)

/-- R182: a PUSH that does not fill the staging block puts its byte at STG[4096 - STG_REMAINING] and nothing else. -/
def Obligations.PushStagesItsByte : Prop :=
  ∀ (s : State) (b : Byte), Live s → s.sphase = .opened → 2 ≤ s.stgRemaining.toNat →
    s.stgRemaining.toNat ≤ 4096 →
    ∃ t, exec (.push b) s = .next t ∧ t.stgRemaining.toNat = s.stgRemaining.toNat - 1 ∧
      peek t .stg (4096 - s.stgRemaining.toNat) = some b ∧
      (∀ a, a ≠ 4096 - s.stgRemaining.toNat → peek t .stg a = peek s .stg a) ∧
      Untouched [.stgRemaining] [.stg] s t

/-- R182, R184, R186: the PUSH that fills the staging block drains it in the same command, if the destination can take
4096 bytes: they stand at DST[DST_USED ..], DST_USED and DST_CAP grow exactly, and the block is empty again. -/
def Obligations.FillingPushDrainsTheBlock : Prop :=
  ∀ (s : State) (b : Byte), Live s → s.sphase = .opened → s.stgRemaining.toNat = 1 → HeldBelow s.stg 4095 →
    s.dstUsed.toNat + 4096 ≤ s.cfg.dstLimit.toNat →
    ∃ t, exec (.push b) s = .next t ∧ t.stgRemaining.toNat = 4096 ∧
      t.dstUsed.toNat = s.dstUsed.toNat + 4096 ∧
      t.dstCap.toNat = max s.dstCap.toNat (s.dstUsed.toNat + 4096) ∧
      (∀ i, i < 4095 → peek t .dst (s.dstUsed.toNat + i) = peek s .stg i) ∧
      peek t .dst (s.dstUsed.toNat + 4095) = some b ∧ peek t .stg 4095 = some b ∧
      (∀ a, ¬(s.dstUsed.toNat ≤ a ∧ a < s.dstUsed.toNat + 4096) → peek t .dst a = peek s .dst a) ∧
      (∀ a, a ≠ 4095 → peek t .stg a = peek s .stg a) ∧
      Untouched [.stgRemaining, .dstUsed, .dstCap] [.stg, .dst] s t

/-- R182: when PUSH is turned away, and that the byte is then not staged. -/
def Obligations.PushIsTurnedAwayUnstaged : Prop :=
  ∀ (s : State) (b : Byte),
    (s.faulted = true → exec (.push b) s = .next s) ∧
    (Live s → s.sphase ≠ .opened → Faults (.push b) s .contractViolation) ∧
    (Live s → s.sphase = .opened → s.stgRemaining.toNat = 1 →
      s.cfg.dstLimit.toNat < s.dstUsed.toNat + 4096 → Faults (.push b) s .encodeOOM)

/-- R185: SINK_FINAL by its pseudocode: only the bytes staged since the last drain are appended, the block is left
empty and the sink is closed; with nothing staged nothing is appended. -/
def Obligations.SinkFinalFlushesAndCloses : Prop :=
  ∀ s : State, s.stgRemaining.toNat ≤ 4096 →
    let n := 4096 - s.stgRemaining.toNat
    let u := s.dstUsed.toNat
    (s.faulted = true → exec .sinkFinal s = .next s) ∧
    (Live s → s.sphase ≠ .opened → Faults .sinkFinal s .contractViolation) ∧
    (Live s → s.sphase = .opened → s.cfg.dstLimit.toNat < u + n → Faults .sinkFinal s .encodeOOM) ∧
    (Live s → s.sphase = .opened → u + n ≤ s.cfg.dstLimit.toNat → HeldBelow s.stg n →
      ∃ t, exec .sinkFinal s = .next t ∧ t.sphase = .done ∧ t.cphase = s.cphase ∧ t.latch = none ∧
        t.stgRemaining.toNat = 4096 ∧ t.dstUsed.toNat = u + n ∧ t.dstCap.toNat = max s.dstCap.toNat (u + n) ∧
        (∀ i, i < n → peek t .dst (u + i) = peek s .stg i) ∧
        (∀ a, ¬(u ≤ a ∧ a < u + n) → peek t .dst a = peek s .dst a) ∧
        Untouched [.status, .stgRemaining, .dstUsed, .dstCap] [.dst] s t)

/-- R187: what a fault-free encode leaves.  Between SINK_INIT and SINK_FINAL any commands may stand but these two; if
all complete without a fault, DST holds exactly the pushed bytes in order.  Before SINK_FINAL, k div 4096 blocks have
been drained and k mod 4096 bytes are staged. -/
def Obligations.FaultFreeEncodeLeavesThePushedBytes : Prop :=
  ∀ (s m t : State) (cmds : List Instr), (∀ i ∈ cmds, i ≠ .sinkInit ∧ i ≠ .sinkFinal) →
    runCommands (.sinkInit :: cmds) s = .next m → exec .sinkFinal m = .next t → Live t →
    let k := (pushedBytes cmds).length
    m.dstUsed.toNat = 4096 * (k / 4096) ∧ m.stgRemaining.toNat = 4096 - k % 4096 ∧
      t.dstUsed.toNat = k ∧ k ≤ t.dstCap.toNat ∧ t.sphase = .done ∧
      ∀ i, i < k → peek t .dst i = (pushedBytes cmds)[i]?

/-- R187, last sentence: an encode of at most DST_LIMIT bytes completes without a fault, from every state with no fault
and a sink that is not open (R248, premises 1 and 3). -/
def Obligations.EncodeWithinTheLimitCompletes : Prop :=
  ∀ (s : State) (bytes : List Byte), Live s → s.sphase ≠ .opened → bytes.length ≤ s.cfg.dstLimit.toNat →
    ∃ t, runCommands (.sinkInit :: (bytes.map .push ++ [.sinkFinal])) s = .next t ∧ Live t ∧ t.sphase = .done ∧
      t.dstUsed.toNat = bytes.length ∧ t.cphase = s.cphase ∧
      Untouched [.status, .stgRemaining, .dstUsed, .dstCap, .dstFormat, .dstWidth, .dstHeight] [.stg, .dst] s t

/-! ### What the outside agents see (spec/70_reset_and_hazards.md R242, R247) -/

/-- R247, R242: the host gets a byte of DST as the result exactly after an encode completed, with no fault recorded and
below DST_USED, and it is the byte of DST; after a completed encode it gets every byte of the result.  The note
`resultReady` is the model's own (log 9): a command that leaves no fault recorded sets it exactly when it leaves an
encode completed, SINK_INIT takes it back and no other command does, so the result can be read until then. -/
def Obligations.HostReadsTheResultWhenComplete : Prop :=
  (∀ (s : State) (i : Nat), BlockInv s →
    ((∃ b, hostReadDst s i = .ok b) ↔ (s.faulted = false ∧ s.resultReady = true ∧ i < s.dstUsed.toNat)) ∧
    (∀ b, hostReadDst s i = .ok b → peek s .dst i = some b) ∧
    (encodeCompleted s = true → i < s.dstUsed.toNat → ∃ b, hostReadDst s i = .ok b)) ∧
    ∀ (i : Instr) (s t : State), BlockInv s → exec i s = .next t → Live t →
      (t.resultReady = true ↔ i ≠ .sinkInit ∧ (s.resultReady = true ∨ encodeCompleted t = true))

/-- After every successful CONV_LINE, the last of a frame included, the engine can read the whole scanline, and it stays
so through every command but CONV_LINE (R126): WRCFG, the next CONV_START, the sink's commands and faults.  That a look
is a function of the state is the model's choice, log 9. -/
def Obligations.EngineReadsTheDeliveredScanline : Prop :=
  ∀ s t : State, exec .convLine s = .next t → Live t →
    (∀ i, i < 3 * s.srcWidth.toNat → ∃ b, engineReadLine t i = .ok b ∧ peek t .line i = some b) ∧
    ∀ (cmds : List Instr) (u : State), (∀ i ∈ cmds, i ≠ .convLine) → runCommands cmds t = .next u →
      ∀ i, engineReadLine u i = engineReadLine t i

/-- R30, R247: a write of SRC outside C_ACTIVE completes and changes exactly the bytes written. -/
def Obligations.HostWritesSourceBetweenFrames : Prop :=
  ∀ (s : State) (addr : Nat) (bytes : List Byte), s.cphase ≠ .active → addr + bytes.length ≤ 2 ^ 34 →
    ∃ t, hostWriteSrc addr bytes s = .next t ∧ Untouched [] [.src] s t ∧
      (∀ i, i < bytes.length → peek t .src (addr + i) = bytes[i]?) ∧
      ∀ a, ¬(addr ≤ a ∧ a < addr + bytes.length) → peek t .src a = peek s .src a
end

