-- ==== Sys2Proof/Laws/Decode.lean ====
section
/-! SUPPORT. Laws of the encoding: the bits and fields of a word of the format CMD32, a word from its fields, and
what a decoded word's fields are. -/

namespace Sys2Proof

/-- A command word bit by bit (R90). -/
theorem getLsbD_cmd32 (op a : Byte) (imm : Half) (i : Nat) :
    (cmd32 op a imm).getLsbD i =
      if i < 16 then imm.getLsbD i else if i < 24 then a.getLsbD (i - 16) else op.getLsbD (i - 24) := by
  have h : (cmd32 op a imm).getLsbD i
      = if i < 16 then imm.getLsbD i else (op ++ a).getLsbD (i - 16) := BitVec.getLsbD_append
  rw [h, BitVec.getLsbD_append]
  have h8 : i - 16 < 8 ↔ i < 24 ∨ i < 16 := by omega
  have h24 : i - 16 - 8 = i - 24 := by omega
  by_cases h1 : i < 16 <;> by_cases h2 : i < 24 <;> simp [h1, h2, h8, h24]

@[simp] theorem opField_cmd32 (op a : Byte) (imm : Half) : opField (cmd32 op a imm) = op := by
  ext i hi
  simp [opField, getLsbD_cmd32, show ¬ 24 + i < 16 by omega, hi]

@[simp] theorem aField_cmd32 (op a : Byte) (imm : Half) : aField (cmd32 op a imm) = a := by
  ext i hi
  simp [aField, getLsbD_cmd32, show 16 + i < 24 by omega, hi]

@[simp] theorem immField_cmd32 (op a : Byte) (imm : Half) : immField (cmd32 op a imm) = imm := by
  ext i hi
  simp [immField, getLsbD_cmd32, hi]

theorem getLsbD_halves (hi lo : Byte) (i : Nat) :
    ((hi ++ lo : Half)).getLsbD i = if i < 8 then lo.getLsbD i else hi.getLsbD (i - 8) :=
  BitVec.getLsbD_append

@[simp] theorem byteField_cmd32 (op a hi lo : Byte) : byteField (cmd32 op a (hi ++ lo)) = lo := by
  ext i h
  simp only [byteField, BitVec.getElem_extractLsb', getLsbD_cmd32, getLsbD_halves]
  simp [show i < 16 by omega, h]

@[simp] theorem immHighField_cmd32 (op a hi lo : Byte) : immHighField (cmd32 op a (hi ++ lo)) = hi := by
  ext i h
  simp only [immHighField, BitVec.getElem_extractLsb', getLsbD_cmd32, getLsbD_halves]
  simp [show 8 + i < 16 by omega, h]

/-- A word is the word of its fields. -/
theorem cmd32_fields (w : Word) : cmd32 (opField w) (aField w) (immField w) = w := by
  apply BitVec.eq_of_getLsbD_eq
  intro i hi
  simp only [getLsbD_cmd32, opField, aField, immField, BitVec.getLsbD_extractLsb']
  split
  · simp [*]
  · split
    · simp [show i - 16 < 8 by omega, show 16 + (i - 16) = i by omega]
    · simp [show i - 24 < 8 by omega, show 24 + (i - 24) = i by omega]

/-- The immediate is its two bytes. -/
theorem immField_halves (w : Word) : immField w = immHighField w ++ byteField w := by
  apply BitVec.eq_of_getLsbD_eq
  intro i hi
  simp only [getLsbD_halves, immField, immHighField, byteField, BitVec.getLsbD_extractLsb']
  split
  · simp [*]
  · simp [show i - 8 < 8 by omega, show 8 + (i - 8) = i by omega, hi]

/-- Two words with the same fields are the same word. -/
theorem word_ext {w w' : Word} (hop : opField w = opField w') (ha : aField w = aField w')
    (him : immField w = immField w') : w = w' := by
  rw [← cmd32_fields w, ← cmd32_fields w', hop, ha, him]

/-- A word is the word of three fields exactly when those are its fields. -/
theorem eq_cmd32_iff {w : Word} {op a : Byte} {imm : Half} :
    w = cmd32 op a imm ↔ opField w = op ∧ aField w = a ∧ immField w = imm := by
  constructor
  · rintro rfl
    simp
  · rintro ⟨rfl, rfl, rfl⟩
    exact (cmd32_fields w).symm

/-- Masking a word masks its fields (R92). -/
theorem cmd32_and (op a op' a' : Byte) (imm imm' : Half) :
    cmd32 op a imm &&& cmd32 op' a' imm' = cmd32 (op &&& op') (a &&& a') (imm &&& imm') := by
  apply BitVec.eq_of_getLsbD_eq
  intro i _
  simp only [BitVec.getLsbD_and, getLsbD_cmd32]
  split
  · rfl
  · split <;> rfl

/-- Bits 23:0 are zero exactly when the two fields there are (R94). -/
theorem low24_eq_zero_iff {w : Word} : w.extractLsb' 0 24 = 0#24 ↔ aField w = 0#8 ∧ immField w = 0#16 := by
  constructor
  · intro h
    have bit : ∀ i < 24, w.getLsbD i = false := fun i hi => by
      simpa [hi] using congrArg (BitVec.getLsbD · i) h
    constructor
    · apply BitVec.eq_of_getLsbD_eq
      intro i hi
      simp [aField, hi, bit (16 + i) (by omega)]
    · apply BitVec.eq_of_getLsbD_eq
      intro i hi
      simp [immField, hi, bit i (by omega)]
  · rintro ⟨ha, hi⟩
    apply BitVec.eq_of_getLsbD_eq
    intro i hi24
    by_cases h : i < 16
    · simpa [immField, h, hi24] using congrArg (BitVec.getLsbD · i) hi
    · have := congrArg (BitVec.getLsbD · (i - 16)) ha
      simpa [aField, show i - 16 < 8 by omega, show 16 + (i - 16) = i by omega, hi24] using this

/-- Bits 23:8 are zero exactly when the two fields there are (R94). -/
theorem mid16_eq_zero_iff {w : Word} : w.extractLsb' 8 16 = 0#16 ↔ aField w = 0#8 ∧ immHighField w = 0#8 := by
  constructor
  · intro h
    have bit : ∀ i < 16, w.getLsbD (8 + i) = false := fun i hi => by
      simpa [hi] using congrArg (BitVec.getLsbD · i) h
    constructor
    · apply BitVec.eq_of_getLsbD_eq
      intro i hi
      simpa [aField, hi, show 8 + (8 + i) = 16 + i by omega] using bit (8 + i) (by omega)
    · apply BitVec.eq_of_getLsbD_eq
      intro i hi
      simp [immHighField, hi, bit i (by omega)]
  · rintro ⟨ha, hi⟩
    apply BitVec.eq_of_getLsbD_eq
    intro i hi16
    by_cases h : i < 8
    · simpa [immHighField, h, hi16] using congrArg (BitVec.getLsbD · i) hi
    · have := congrArg (BitVec.getLsbD · (i - 8)) ha
      simpa [aField, show i - 8 < 8 by omega, show 16 + (i - 8) = 8 + i by omega, hi16] using this

theorem requireZero_eq_ok {z : Bool} {i j : Instr} : requireZero z i = .ok j ↔ z = true ∧ i = j := by
  cases z <;> simp [requireZero]

theorem byte_of_toNat {b : Byte} {n : Nat} (h : b.toNat = n) : b = BitVec.ofNat 8 n := by simp [← h]

/-- What a word that decodes to a command has in its fields: the command's opcode byte, and its operands or
zeros (R92, R93). -/
theorem decode_eq_ok {w : Word} {i : Instr} (h : decode w = .ok i) : opField w = i.opByte ∧ i.fieldsOf w := by
  unfold decode at h
  split at h
  case h_2 hn => cases h; exact ⟨byte_of_toNat hn, rfl, rfl⟩
  case h_9 => cases h
  all_goals
    rename_i hn
    obtain ⟨hz, rfl⟩ := requireZero_eq_ok.1 h
    exact ⟨byte_of_toNat hn, by simpa [Instr.fieldsOf] using hz⟩

/-- A word whose fields are a command's decodes to it. -/
theorem decode_of_fields {w : Word} {i : Instr} (hop : opField w = i.opByte) (hf : i.fieldsOf w) :
    decode w = .ok i := by
  cases i <;> simp_all [decode, Instr.opByte, Instr.fieldsOf, requireZero]

/-- The opcode byte a fault records is the word's own (R200). -/
theorem opField_of_decode {w : Word} {i : Instr} (h : decode w = .ok i) : opField w = i.opByte :=
  (decode_eq_ok h).1

end Sys2Proof
end

