-- ==== Sys2Proof/Laws/Memory.lean ====
section
/-! SUPPORT. Laws of a memory's bytes: read after write, the canonical form, the size of a space, and reading
several bytes at once. -/

namespace Sys2Proof.Machine

variable {m : Memory} {a b n : Nat} {bs : List Byte}

@[simp] theorem readByte_nil : readByte [] a = none := rfl

theorem readByte_append (m m' : Memory) (a : Nat) :
    readByte (m ++ m') a = (readByte m a).or (readByte m' a) := by
  induction m with
  | nil => simp
  | cons c m ih =>
    simp only [List.cons_append, readByte]
    split <;> simp [ih]

theorem readByte_filter (m : Memory) (p : Nat → Bool) (a : Nat) :
    readByte (m.filter fun c => p c.1) a = if p a then readByte m a else none := by
  induction m with
  | nil => simp
  | cons c m ih =>
    by_cases hp : p c.1 <;> by_cases hc : c.1 = a <;> simp_all [readByte]

theorem readByte_cellsFrom (a : Nat) (bs : List Byte) (b : Nat) :
    readByte (cellsFrom a bs) b = if a ≤ b then bs[b - a]? else none := by
  induction bs generalizing a with
  | nil => simp [cellsFrom]
  | cons v bs ih =>
    simp only [cellsFrom, readByte, ih]
    by_cases h : a = b
    · simp [h]
    · by_cases hle : a ≤ b
      · have h1 : b - a = (b - (a + 1)) + 1 := by omega
        simp [h, hle, show a + 1 ≤ b by omega, h1]
      · simp [h, hle, show ¬ a + 1 ≤ b by omega]

/-- Read after write, everywhere: the stored bytes inside, the old bytes outside. -/
theorem readByte_storeBytes (m : Memory) (a : Nat) (bs : List Byte) (b : Nat) :
    readByte (storeBytes m a bs) b = if a ≤ b ∧ b < a + bs.length then bs[b - a]? else readByte m b := by
  simp only [storeBytes, readByte_append, readByte_cellsFrom]
  rw [readByte_filter m (fun k => decide (k < a)), readByte_filter m (fun k => decide (a + bs.length ≤ k))]
  by_cases h1 : b < a
  · have h2 : ¬ a + bs.length ≤ b := by omega
    simp [h1, h2, show ¬ a ≤ b by omega]
  · by_cases h2 : b < a + bs.length
    · have h3 : b - a < bs.length := by omega
      simp [h1, h2, show a ≤ b by omega, show ¬ a + bs.length ≤ b by omega, h3]
    · have h3 : bs.length ≤ b - a := by omega
      simp [h1, h2, show a ≤ b by omega, show a + bs.length ≤ b by omega, h3]

/-- A write leaves every other address alone. -/
theorem readByte_storeBytes_outside (h : ¬(a ≤ b ∧ b < a + bs.length)) :
    readByte (storeBytes m a bs) b = readByte m b := by
  rw [readByte_storeBytes, if_neg h]

/-- The `i`-th stored byte is read back. -/
theorem readByte_storeBytes_inside {i : Nat} (h : i < bs.length) :
    readByte (storeBytes m a bs) (a + i) = some bs[i] := by
  rw [readByte_storeBytes, if_pos (by omega)]
  simp [h]

/-- Writing gives no address's value up. -/
theorem isSome_storeBytes (h : (readByte m b).isSome) : (readByte (storeBytes m a bs) b).isSome := by
  rw [readByte_storeBytes]
  split
  · next hb => simp [show b - a < bs.length by omega]
  · exact h

theorem mem_cellsFrom {c : Host.Cell} (h : c ∈ cellsFrom a bs) : a ≤ c.1 ∧ c.1 < a + bs.length := by
  induction bs generalizing a with
  | nil => simp [cellsFrom] at h
  | cons v bs ih =>
    rcases List.mem_cons.1 h with rfl | h
    · simp
    · have := ih h
      simp only [List.length_cons]
      omega

theorem cellsFrom_wf (a : Nat) (bs : List Byte) : Memory.wf (cellsFrom a bs) := by
  induction bs generalizing a with
  | nil => exact .nil
  | cons v bs ih => exact List.pairwise_cons.2 ⟨fun c hc => (mem_cellsFrom hc).1, ih (a + 1)⟩

/-- Every write keeps the canonical form. -/
theorem storeBytes_wf (h : m.wf) (a : Nat) (bs : List Byte) : Memory.wf (storeBytes m a bs) := by
  have hlow : Memory.wf (m.filter fun c => decide (c.1 < a)) := h.filter _
  have hhigh : Memory.wf (m.filter fun c => decide (a + bs.length ≤ c.1)) := h.filter _
  refine List.pairwise_append.2 ⟨List.pairwise_append.2 ⟨hlow, cellsFrom_wf a bs, ?_⟩, hhigh, ?_⟩
  · intro c hc d hd
    have h1 := (List.mem_filter.1 hc).2
    have h2 := mem_cellsFrom hd
    simp only [decide_eq_true_eq] at h1
    omega
  · intro c hc d hd
    have h2 := (List.mem_filter.1 hd).2
    simp only [decide_eq_true_eq] at h2
    rcases List.mem_append.1 hc with hc | hc
    · have h1 := (List.mem_filter.1 hc).2
      simp only [decide_eq_true_eq] at h1
      omega
    · have := mem_cellsFrom hc
      omega

/-- A write holds no cell but the old ones and those it writes. -/
theorem mem_storeBytes {c : Host.Cell} (h : c ∈ storeBytes m a bs) :
    c ∈ m ∨ (a ≤ c.1 ∧ c.1 < a + bs.length) := by
  rcases List.mem_append.1 h with h | h
  · rcases List.mem_append.1 h with h | h
    · exact .inl (List.mem_filter.1 h).1
    · exact .inr (mem_cellsFrom h)
  · exact .inl (List.mem_filter.1 h).1

section
variable {α β : Type}

/-- `allSome` gives a list exactly when every entry is there, and then those entries. -/
theorem allSome_eq_some {xs : List (Option α)} {ys : List α} : allSome xs = some ys ↔ xs = ys.map some := by
  induction xs generalizing ys with
  | nil => cases ys <;> simp [allSome]
  | cons x xs ih =>
    cases x with
    | none => cases ys <;> simp [allSome]
    | some x =>
      cases hx : allSome xs with
      | none =>
        have : ∀ zs : List α, xs ≠ zs.map some := fun zs hz => by rw [ih.2 hz] at hx; cases hx
        cases ys <;> simp [allSome, hx, this]
      | some zs =>
        have := ih.1 hx
        cases ys with
        | nil => simp [allSome, hx]
        | cons y ys =>
          have inj : xs = List.map some ys ↔ zs = ys := by
            rw [this]
            exact ⟨fun h => (List.map_injective_iff.2 (Option.some_injective α)) h, fun h => by rw [h]⟩
          simp [allSome, hx, inj]

/-- If every entry is there, so is the list. -/
theorem allSome_map_of_isSome {l : List β} {f : β → Option α} (h : ∀ x ∈ l, (f x).isSome) :
    ∃ ys, allSome (l.map f) = some ys := by
  induction l with
  | nil => exact ⟨[], rfl⟩
  | cons x l ih =>
    obtain ⟨y, hy⟩ := Option.isSome_iff_exists.1 (h x List.mem_cons_self)
    obtain ⟨ys, hys⟩ := ih fun z hz => h z (List.mem_cons_of_mem _ hz)
    exact ⟨y :: ys, by simp [allSome, hy, hys]⟩

theorem allSome_range_length {f : Nat → Option α} {ys : List α}
    (h : allSome ((List.range n).map f) = some ys) : ys.length = n := by
  have := congrArg List.length (allSome_eq_some.1 h)
  simpa using this.symm

theorem allSome_range_get {f : Nat → Option α} {ys : List α}
    (h : allSome ((List.range n).map f) = some ys) {i : Nat} (hi : i < n) :
    f i = ys[i]? := by
  have h2 := congrArg (fun l => l[i]?) (allSome_eq_some.1 h)
  have hl := allSome_range_length h
  simp only [List.getElem?_map, List.getElem?_range hi, Option.map_some] at h2
  rw [List.getElem?_eq_getElem (by omega)] at h2 ⊢
  simpa using h2

end

/-- Loading bytes that all hold a value succeeds. -/
theorem loadBytes_of_held (h : ∀ i, i < n → (readByte m (a + i)).isSome) :
    ∃ bs, loadBytes m a n = some bs :=
  allSome_map_of_isSome fun i hi => h i (List.mem_range.1 hi)

theorem loadBytes_length (h : loadBytes m a n = some bs) : bs.length = n := allSome_range_length h

theorem loadBytes_get (h : loadBytes m a n = some bs) {i : Nat} (hi : i < n) :
    readByte m (a + i) = bs[i]? := allSome_range_get h hi

/-- Loading what the addresses are known to hold. -/
theorem loadBytes_eq (hl : bs.length = n) (h : ∀ i, i < n → readByte m (a + i) = bs[i]?) :
    loadBytes m a n = some bs := by
  refine allSome_eq_some.2 (List.ext_getElem (by simp [hl]) fun i h1 h2 => ?_)
  have hi : i < n := by simpa using h1
  simp [h i hi, show i < bs.length by omega]

end Sys2Proof.Machine
end

