-- ==== Sys2Proof/Laws/State.lean ====
section
/-! SUPPORT. What each update of the state changes: one lemma per field per update, so that no proof unfolds a
record update. -/

namespace Sys2Proof.Machine

/-! ### `beginFrame` (R121) -/

@[simp] theorem beginFrame_cphase (s : State) : (beginFrame s).cphase = .active := rfl
@[simp] theorem beginFrame_sphase (s : State) : (beginFrame s).sphase = s.sphase := rfl
@[simp] theorem beginFrame_latch (s : State) : (beginFrame s).latch = s.latch := rfl
@[simp] theorem beginFrame_srcFormat (s : State) : (beginFrame s).srcFormat = s.srcFormat := rfl
@[simp] theorem beginFrame_srcWidth (s : State) : (beginFrame s).srcWidth = s.srcWidth := rfl
@[simp] theorem beginFrame_srcHeight (s : State) : (beginFrame s).srcHeight = s.srcHeight := rfl
@[simp] theorem beginFrame_srcPadding (s : State) : (beginFrame s).srcPadding = s.srcPadding := rfl
@[simp] theorem beginFrame_nextRow (s : State) : (beginFrame s).nextRow = 0#16 := rfl
@[simp] theorem beginFrame_stgRemaining (s : State) : (beginFrame s).stgRemaining = s.stgRemaining := rfl
@[simp] theorem beginFrame_dstUsed (s : State) : (beginFrame s).dstUsed = s.dstUsed := rfl
@[simp] theorem beginFrame_dstCap (s : State) : (beginFrame s).dstCap = s.dstCap := rfl
@[simp] theorem beginFrame_dstFormat (s : State) : (beginFrame s).dstFormat = s.dstFormat := rfl
@[simp] theorem beginFrame_dstWidth (s : State) : (beginFrame s).dstWidth = s.dstWidth := rfl
@[simp] theorem beginFrame_dstHeight (s : State) : (beginFrame s).dstHeight = s.dstHeight := rfl
@[simp] theorem beginFrame_src (s : State) : (beginFrame s).src = s.src := rfl
@[simp] theorem beginFrame_plane (s : State) : (beginFrame s).plane = s.plane := rfl
@[simp] theorem beginFrame_line (s : State) : (beginFrame s).line = s.line := rfl
@[simp] theorem beginFrame_stg (s : State) : (beginFrame s).stg = s.stg := rfl
@[simp] theorem beginFrame_dst (s : State) : (beginFrame s).dst = s.dst := rfl
@[simp] theorem beginFrame_cfg (s : State) : (beginFrame s).cfg = s.cfg := rfl
@[simp] theorem beginFrame_inbox (s : State) : (beginFrame s).inbox = s.inbox := rfl
@[simp] theorem beginFrame_responses (s : State) : (beginFrame s).responses = s.responses := rfl
@[simp] theorem beginFrame_resultReady (s : State) : (beginFrame s).resultReady = s.resultReady := rfl

/-! ### `deliverRow` (R124) -/

@[simp] theorem deliverRow_cphase (ts : List Triplet) (s : State) : (deliverRow ts s).cphase = phaseAfterRow s.nextRow.toNat s.srcHeight.toNat := rfl
@[simp] theorem deliverRow_sphase (ts : List Triplet) (s : State) : (deliverRow ts s).sphase = s.sphase := rfl
@[simp] theorem deliverRow_latch (ts : List Triplet) (s : State) : (deliverRow ts s).latch = s.latch := rfl
@[simp] theorem deliverRow_srcFormat (ts : List Triplet) (s : State) : (deliverRow ts s).srcFormat = s.srcFormat := rfl
@[simp] theorem deliverRow_srcWidth (ts : List Triplet) (s : State) : (deliverRow ts s).srcWidth = s.srcWidth := rfl
@[simp] theorem deliverRow_srcHeight (ts : List Triplet) (s : State) : (deliverRow ts s).srcHeight = s.srcHeight := rfl
@[simp] theorem deliverRow_srcPadding (ts : List Triplet) (s : State) : (deliverRow ts s).srcPadding = s.srcPadding := rfl
@[simp] theorem deliverRow_nextRow (ts : List Triplet) (s : State) : (deliverRow ts s).nextRow = s.nextRow + 1#16 := rfl
@[simp] theorem deliverRow_stgRemaining (ts : List Triplet) (s : State) : (deliverRow ts s).stgRemaining = s.stgRemaining := rfl
@[simp] theorem deliverRow_dstUsed (ts : List Triplet) (s : State) : (deliverRow ts s).dstUsed = s.dstUsed := rfl
@[simp] theorem deliverRow_dstCap (ts : List Triplet) (s : State) : (deliverRow ts s).dstCap = s.dstCap := rfl
@[simp] theorem deliverRow_dstFormat (ts : List Triplet) (s : State) : (deliverRow ts s).dstFormat = s.dstFormat := rfl
@[simp] theorem deliverRow_dstWidth (ts : List Triplet) (s : State) : (deliverRow ts s).dstWidth = s.dstWidth := rfl
@[simp] theorem deliverRow_dstHeight (ts : List Triplet) (s : State) : (deliverRow ts s).dstHeight = s.dstHeight := rfl
@[simp] theorem deliverRow_src (ts : List Triplet) (s : State) : (deliverRow ts s).src = s.src := rfl
@[simp] theorem deliverRow_plane (ts : List Triplet) (s : State) : (deliverRow ts s).plane = s.plane := rfl
@[simp] theorem deliverRow_line (ts : List Triplet) (s : State) : (deliverRow ts s).line = storeBytes s.line 0 (rowBytes ts) := rfl
@[simp] theorem deliverRow_stg (ts : List Triplet) (s : State) : (deliverRow ts s).stg = s.stg := rfl
@[simp] theorem deliverRow_dst (ts : List Triplet) (s : State) : (deliverRow ts s).dst = s.dst := rfl
@[simp] theorem deliverRow_cfg (ts : List Triplet) (s : State) : (deliverRow ts s).cfg = s.cfg := rfl
@[simp] theorem deliverRow_inbox (ts : List Triplet) (s : State) : (deliverRow ts s).inbox = s.inbox := rfl
@[simp] theorem deliverRow_responses (ts : List Triplet) (s : State) : (deliverRow ts s).responses = s.responses := rfl
@[simp] theorem deliverRow_resultReady (ts : List Triplet) (s : State) : (deliverRow ts s).resultReady = (s.resultReady || encodeCompleted { s with cphase := phaseAfterRow s.nextRow.toNat s.srcHeight.toNat }) := rfl

/-! ### `stageByte` (R182) -/

@[simp] theorem stageByte_cphase (byte : Byte) (s : State) : (stageByte byte s).cphase = s.cphase := rfl
@[simp] theorem stageByte_sphase (byte : Byte) (s : State) : (stageByte byte s).sphase = s.sphase := rfl
@[simp] theorem stageByte_latch (byte : Byte) (s : State) : (stageByte byte s).latch = s.latch := rfl
@[simp] theorem stageByte_srcFormat (byte : Byte) (s : State) : (stageByte byte s).srcFormat = s.srcFormat := rfl
@[simp] theorem stageByte_srcWidth (byte : Byte) (s : State) : (stageByte byte s).srcWidth = s.srcWidth := rfl
@[simp] theorem stageByte_srcHeight (byte : Byte) (s : State) : (stageByte byte s).srcHeight = s.srcHeight := rfl
@[simp] theorem stageByte_srcPadding (byte : Byte) (s : State) : (stageByte byte s).srcPadding = s.srcPadding := rfl
@[simp] theorem stageByte_nextRow (byte : Byte) (s : State) : (stageByte byte s).nextRow = s.nextRow := rfl
@[simp] theorem stageByte_stgRemaining (byte : Byte) (s : State) : (stageByte byte s).stgRemaining = s.stgRemaining - 1#13 := rfl
@[simp] theorem stageByte_dstUsed (byte : Byte) (s : State) : (stageByte byte s).dstUsed = s.dstUsed := rfl
@[simp] theorem stageByte_dstCap (byte : Byte) (s : State) : (stageByte byte s).dstCap = s.dstCap := rfl
@[simp] theorem stageByte_dstFormat (byte : Byte) (s : State) : (stageByte byte s).dstFormat = s.dstFormat := rfl
@[simp] theorem stageByte_dstWidth (byte : Byte) (s : State) : (stageByte byte s).dstWidth = s.dstWidth := rfl
@[simp] theorem stageByte_dstHeight (byte : Byte) (s : State) : (stageByte byte s).dstHeight = s.dstHeight := rfl
@[simp] theorem stageByte_src (byte : Byte) (s : State) : (stageByte byte s).src = s.src := rfl
@[simp] theorem stageByte_plane (byte : Byte) (s : State) : (stageByte byte s).plane = s.plane := rfl
@[simp] theorem stageByte_line (byte : Byte) (s : State) : (stageByte byte s).line = s.line := rfl
@[simp] theorem stageByte_stg (byte : Byte) (s : State) : (stageByte byte s).stg = storeBytes s.stg (Config.stgCapacity - s.stgRemaining.toNat) [byte] := rfl
@[simp] theorem stageByte_dst (byte : Byte) (s : State) : (stageByte byte s).dst = s.dst := rfl
@[simp] theorem stageByte_cfg (byte : Byte) (s : State) : (stageByte byte s).cfg = s.cfg := rfl
@[simp] theorem stageByte_inbox (byte : Byte) (s : State) : (stageByte byte s).inbox = s.inbox := rfl
@[simp] theorem stageByte_responses (byte : Byte) (s : State) : (stageByte byte s).responses = s.responses := rfl
@[simp] theorem stageByte_resultReady (byte : Byte) (s : State) : (stageByte byte s).resultReady = s.resultReady := rfl

/-! ### `emptyStaging` (R186) -/

@[simp] theorem emptyStaging_cphase (s : State) : (emptyStaging s).cphase = s.cphase := rfl
@[simp] theorem emptyStaging_sphase (s : State) : (emptyStaging s).sphase = s.sphase := rfl
@[simp] theorem emptyStaging_latch (s : State) : (emptyStaging s).latch = s.latch := rfl
@[simp] theorem emptyStaging_srcFormat (s : State) : (emptyStaging s).srcFormat = s.srcFormat := rfl
@[simp] theorem emptyStaging_srcWidth (s : State) : (emptyStaging s).srcWidth = s.srcWidth := rfl
@[simp] theorem emptyStaging_srcHeight (s : State) : (emptyStaging s).srcHeight = s.srcHeight := rfl
@[simp] theorem emptyStaging_srcPadding (s : State) : (emptyStaging s).srcPadding = s.srcPadding := rfl
@[simp] theorem emptyStaging_nextRow (s : State) : (emptyStaging s).nextRow = s.nextRow := rfl
@[simp] theorem emptyStaging_stgRemaining (s : State) : (emptyStaging s).stgRemaining = 0x1000#13 := rfl
@[simp] theorem emptyStaging_dstUsed (s : State) : (emptyStaging s).dstUsed = s.dstUsed := rfl
@[simp] theorem emptyStaging_dstCap (s : State) : (emptyStaging s).dstCap = s.dstCap := rfl
@[simp] theorem emptyStaging_dstFormat (s : State) : (emptyStaging s).dstFormat = s.dstFormat := rfl
@[simp] theorem emptyStaging_dstWidth (s : State) : (emptyStaging s).dstWidth = s.dstWidth := rfl
@[simp] theorem emptyStaging_dstHeight (s : State) : (emptyStaging s).dstHeight = s.dstHeight := rfl
@[simp] theorem emptyStaging_src (s : State) : (emptyStaging s).src = s.src := rfl
@[simp] theorem emptyStaging_plane (s : State) : (emptyStaging s).plane = s.plane := rfl
@[simp] theorem emptyStaging_line (s : State) : (emptyStaging s).line = s.line := rfl
@[simp] theorem emptyStaging_stg (s : State) : (emptyStaging s).stg = s.stg := rfl
@[simp] theorem emptyStaging_dst (s : State) : (emptyStaging s).dst = s.dst := rfl
@[simp] theorem emptyStaging_cfg (s : State) : (emptyStaging s).cfg = s.cfg := rfl
@[simp] theorem emptyStaging_inbox (s : State) : (emptyStaging s).inbox = s.inbox := rfl
@[simp] theorem emptyStaging_responses (s : State) : (emptyStaging s).responses = s.responses := rfl
@[simp] theorem emptyStaging_resultReady (s : State) : (emptyStaging s).resultReady = s.resultReady := rfl

/-! ### `closeSink` (R185) -/

@[simp] theorem closeSink_cphase (s : State) : (closeSink s).cphase = s.cphase := rfl
@[simp] theorem closeSink_sphase (s : State) : (closeSink s).sphase = .done := rfl
@[simp] theorem closeSink_latch (s : State) : (closeSink s).latch = s.latch := rfl
@[simp] theorem closeSink_srcFormat (s : State) : (closeSink s).srcFormat = s.srcFormat := rfl
@[simp] theorem closeSink_srcWidth (s : State) : (closeSink s).srcWidth = s.srcWidth := rfl
@[simp] theorem closeSink_srcHeight (s : State) : (closeSink s).srcHeight = s.srcHeight := rfl
@[simp] theorem closeSink_srcPadding (s : State) : (closeSink s).srcPadding = s.srcPadding := rfl
@[simp] theorem closeSink_nextRow (s : State) : (closeSink s).nextRow = s.nextRow := rfl
@[simp] theorem closeSink_stgRemaining (s : State) : (closeSink s).stgRemaining = 0x1000#13 := rfl
@[simp] theorem closeSink_dstUsed (s : State) : (closeSink s).dstUsed = s.dstUsed := rfl
@[simp] theorem closeSink_dstCap (s : State) : (closeSink s).dstCap = s.dstCap := rfl
@[simp] theorem closeSink_dstFormat (s : State) : (closeSink s).dstFormat = s.dstFormat := rfl
@[simp] theorem closeSink_dstWidth (s : State) : (closeSink s).dstWidth = s.dstWidth := rfl
@[simp] theorem closeSink_dstHeight (s : State) : (closeSink s).dstHeight = s.dstHeight := rfl
@[simp] theorem closeSink_src (s : State) : (closeSink s).src = s.src := rfl
@[simp] theorem closeSink_plane (s : State) : (closeSink s).plane = s.plane := rfl
@[simp] theorem closeSink_line (s : State) : (closeSink s).line = s.line := rfl
@[simp] theorem closeSink_stg (s : State) : (closeSink s).stg = s.stg := rfl
@[simp] theorem closeSink_dst (s : State) : (closeSink s).dst = s.dst := rfl
@[simp] theorem closeSink_cfg (s : State) : (closeSink s).cfg = s.cfg := rfl
@[simp] theorem closeSink_inbox (s : State) : (closeSink s).inbox = s.inbox := rfl
@[simp] theorem closeSink_responses (s : State) : (closeSink s).responses = s.responses := rfl
@[simp] theorem closeSink_resultReady (s : State) : (closeSink s).resultReady = (s.resultReady || encodeCompleted { s with sphase := .done }) := rfl

/-! ### `appendBytes` (R184) -/

@[simp] theorem appendBytes_cphase (bs : List Byte) (s : State) : (appendBytes bs s).cphase = s.cphase := rfl
@[simp] theorem appendBytes_sphase (bs : List Byte) (s : State) : (appendBytes bs s).sphase = s.sphase := rfl
@[simp] theorem appendBytes_latch (bs : List Byte) (s : State) : (appendBytes bs s).latch = s.latch := rfl
@[simp] theorem appendBytes_srcFormat (bs : List Byte) (s : State) : (appendBytes bs s).srcFormat = s.srcFormat := rfl
@[simp] theorem appendBytes_srcWidth (bs : List Byte) (s : State) : (appendBytes bs s).srcWidth = s.srcWidth := rfl
@[simp] theorem appendBytes_srcHeight (bs : List Byte) (s : State) : (appendBytes bs s).srcHeight = s.srcHeight := rfl
@[simp] theorem appendBytes_srcPadding (bs : List Byte) (s : State) : (appendBytes bs s).srcPadding = s.srcPadding := rfl
@[simp] theorem appendBytes_nextRow (bs : List Byte) (s : State) : (appendBytes bs s).nextRow = s.nextRow := rfl
@[simp] theorem appendBytes_stgRemaining (bs : List Byte) (s : State) : (appendBytes bs s).stgRemaining = s.stgRemaining := rfl
@[simp] theorem appendBytes_dstUsed (bs : List Byte) (s : State) : (appendBytes bs s).dstUsed = BitVec.ofNat 32 (s.dstUsed.toNat + bs.length) := rfl
@[simp] theorem appendBytes_dstCap (bs : List Byte) (s : State) : (appendBytes bs s).dstCap = if s.dstCap.toNat < s.dstUsed.toNat + bs.length then BitVec.ofNat 32 (s.dstUsed.toNat + bs.length) else s.dstCap := rfl
@[simp] theorem appendBytes_dstFormat (bs : List Byte) (s : State) : (appendBytes bs s).dstFormat = s.dstFormat := rfl
@[simp] theorem appendBytes_dstWidth (bs : List Byte) (s : State) : (appendBytes bs s).dstWidth = s.dstWidth := rfl
@[simp] theorem appendBytes_dstHeight (bs : List Byte) (s : State) : (appendBytes bs s).dstHeight = s.dstHeight := rfl
@[simp] theorem appendBytes_src (bs : List Byte) (s : State) : (appendBytes bs s).src = s.src := rfl
@[simp] theorem appendBytes_plane (bs : List Byte) (s : State) : (appendBytes bs s).plane = s.plane := rfl
@[simp] theorem appendBytes_line (bs : List Byte) (s : State) : (appendBytes bs s).line = s.line := rfl
@[simp] theorem appendBytes_stg (bs : List Byte) (s : State) : (appendBytes bs s).stg = s.stg := rfl
@[simp] theorem appendBytes_dst (bs : List Byte) (s : State) : (appendBytes bs s).dst = storeBytes s.dst s.dstUsed.toNat bs := rfl
@[simp] theorem appendBytes_cfg (bs : List Byte) (s : State) : (appendBytes bs s).cfg = s.cfg := rfl
@[simp] theorem appendBytes_inbox (bs : List Byte) (s : State) : (appendBytes bs s).inbox = s.inbox := rfl
@[simp] theorem appendBytes_responses (bs : List Byte) (s : State) : (appendBytes bs s).responses = s.responses := rfl
@[simp] theorem appendBytes_resultReady (bs : List Byte) (s : State) : (appendBytes bs s).resultReady = s.resultReady := rfl

/-! ### `resetBlock` (R230, R33) -/

@[simp] theorem resetBlock_cphase (s : State) : (resetBlock s).cphase = .idle := rfl
@[simp] theorem resetBlock_sphase (s : State) : (resetBlock s).sphase = .idle := rfl
@[simp] theorem resetBlock_latch (s : State) : (resetBlock s).latch = none := rfl
@[simp] theorem resetBlock_srcFormat (s : State) : (resetBlock s).srcFormat = 0#16 := rfl
@[simp] theorem resetBlock_srcWidth (s : State) : (resetBlock s).srcWidth = 0#16 := rfl
@[simp] theorem resetBlock_srcHeight (s : State) : (resetBlock s).srcHeight = 0#16 := rfl
@[simp] theorem resetBlock_srcPadding (s : State) : (resetBlock s).srcPadding = 0#16 := rfl
@[simp] theorem resetBlock_nextRow (s : State) : (resetBlock s).nextRow = 0#16 := rfl
@[simp] theorem resetBlock_stgRemaining (s : State) : (resetBlock s).stgRemaining = 0x1000#13 := rfl
@[simp] theorem resetBlock_dstUsed (s : State) : (resetBlock s).dstUsed = 0#32 := rfl
@[simp] theorem resetBlock_dstCap (s : State) : (resetBlock s).dstCap = 0#32 := rfl
@[simp] theorem resetBlock_dstFormat (s : State) : (resetBlock s).dstFormat = 0#16 := rfl
@[simp] theorem resetBlock_dstWidth (s : State) : (resetBlock s).dstWidth = 0#16 := rfl
@[simp] theorem resetBlock_dstHeight (s : State) : (resetBlock s).dstHeight = 0#16 := rfl
@[simp] theorem resetBlock_src (s : State) : (resetBlock s).src = s.src := rfl
@[simp] theorem resetBlock_plane (s : State) : (resetBlock s).plane = [] := rfl
@[simp] theorem resetBlock_line (s : State) : (resetBlock s).line = [] := rfl
@[simp] theorem resetBlock_stg (s : State) : (resetBlock s).stg = [] := rfl
@[simp] theorem resetBlock_dst (s : State) : (resetBlock s).dst = s.dst := rfl
@[simp] theorem resetBlock_cfg (s : State) : (resetBlock s).cfg = s.cfg := rfl
@[simp] theorem resetBlock_inbox (s : State) : (resetBlock s).inbox = s.inbox := rfl
@[simp] theorem resetBlock_responses (s : State) : (resetBlock s).responses = s.responses := rfl
@[simp] theorem resetBlock_resultReady (s : State) : (resetBlock s).resultReady = false := rfl

/-! ### `writeConfig` (R112) -/

@[simp] theorem writeConfig_cphase (r : RegName) (val : Half) (s : State) : (writeConfig r val s).cphase = s.cphase := by
  cases r <;> rfl
@[simp] theorem writeConfig_sphase (r : RegName) (val : Half) (s : State) : (writeConfig r val s).sphase = s.sphase := by
  cases r <;> rfl
@[simp] theorem writeConfig_latch (r : RegName) (val : Half) (s : State) : (writeConfig r val s).latch = s.latch := by
  cases r <;> rfl
@[simp] theorem writeConfig_nextRow (r : RegName) (val : Half) (s : State) : (writeConfig r val s).nextRow = s.nextRow := by
  cases r <;> rfl
@[simp] theorem writeConfig_stgRemaining (r : RegName) (val : Half) (s : State) : (writeConfig r val s).stgRemaining = s.stgRemaining := by
  cases r <;> rfl
@[simp] theorem writeConfig_dstUsed (r : RegName) (val : Half) (s : State) : (writeConfig r val s).dstUsed = s.dstUsed := by
  cases r <;> rfl
@[simp] theorem writeConfig_dstCap (r : RegName) (val : Half) (s : State) : (writeConfig r val s).dstCap = s.dstCap := by
  cases r <;> rfl
@[simp] theorem writeConfig_dstFormat (r : RegName) (val : Half) (s : State) : (writeConfig r val s).dstFormat = s.dstFormat := by
  cases r <;> rfl
@[simp] theorem writeConfig_dstWidth (r : RegName) (val : Half) (s : State) : (writeConfig r val s).dstWidth = s.dstWidth := by
  cases r <;> rfl
@[simp] theorem writeConfig_dstHeight (r : RegName) (val : Half) (s : State) : (writeConfig r val s).dstHeight = s.dstHeight := by
  cases r <;> rfl
@[simp] theorem writeConfig_src (r : RegName) (val : Half) (s : State) : (writeConfig r val s).src = s.src := by
  cases r <;> rfl
@[simp] theorem writeConfig_plane (r : RegName) (val : Half) (s : State) : (writeConfig r val s).plane = s.plane := by
  cases r <;> rfl
@[simp] theorem writeConfig_line (r : RegName) (val : Half) (s : State) : (writeConfig r val s).line = s.line := by
  cases r <;> rfl
@[simp] theorem writeConfig_stg (r : RegName) (val : Half) (s : State) : (writeConfig r val s).stg = s.stg := by
  cases r <;> rfl
@[simp] theorem writeConfig_dst (r : RegName) (val : Half) (s : State) : (writeConfig r val s).dst = s.dst := by
  cases r <;> rfl
@[simp] theorem writeConfig_cfg (r : RegName) (val : Half) (s : State) : (writeConfig r val s).cfg = s.cfg := by
  cases r <;> rfl
@[simp] theorem writeConfig_inbox (r : RegName) (val : Half) (s : State) : (writeConfig r val s).inbox = s.inbox := by
  cases r <;> rfl
@[simp] theorem writeConfig_responses (r : RegName) (val : Half) (s : State) : (writeConfig r val s).responses = s.responses := by
  cases r <;> rfl
@[simp] theorem writeConfig_resultReady (r : RegName) (val : Half) (s : State) : (writeConfig r val s).resultReady = s.resultReady := by
  cases r <;> rfl

/-! ### `noteCompletion` (R242) -/

@[simp] theorem noteCompletion_cphase (s : State) : (noteCompletion s).cphase = s.cphase := rfl
@[simp] theorem noteCompletion_sphase (s : State) : (noteCompletion s).sphase = s.sphase := rfl
@[simp] theorem noteCompletion_latch (s : State) : (noteCompletion s).latch = s.latch := rfl
@[simp] theorem noteCompletion_srcFormat (s : State) : (noteCompletion s).srcFormat = s.srcFormat := rfl
@[simp] theorem noteCompletion_srcWidth (s : State) : (noteCompletion s).srcWidth = s.srcWidth := rfl
@[simp] theorem noteCompletion_srcHeight (s : State) : (noteCompletion s).srcHeight = s.srcHeight := rfl
@[simp] theorem noteCompletion_srcPadding (s : State) : (noteCompletion s).srcPadding = s.srcPadding := rfl
@[simp] theorem noteCompletion_nextRow (s : State) : (noteCompletion s).nextRow = s.nextRow := rfl
@[simp] theorem noteCompletion_stgRemaining (s : State) : (noteCompletion s).stgRemaining = s.stgRemaining := rfl
@[simp] theorem noteCompletion_dstUsed (s : State) : (noteCompletion s).dstUsed = s.dstUsed := rfl
@[simp] theorem noteCompletion_dstCap (s : State) : (noteCompletion s).dstCap = s.dstCap := rfl
@[simp] theorem noteCompletion_dstFormat (s : State) : (noteCompletion s).dstFormat = s.dstFormat := rfl
@[simp] theorem noteCompletion_dstWidth (s : State) : (noteCompletion s).dstWidth = s.dstWidth := rfl
@[simp] theorem noteCompletion_dstHeight (s : State) : (noteCompletion s).dstHeight = s.dstHeight := rfl
@[simp] theorem noteCompletion_src (s : State) : (noteCompletion s).src = s.src := rfl
@[simp] theorem noteCompletion_plane (s : State) : (noteCompletion s).plane = s.plane := rfl
@[simp] theorem noteCompletion_line (s : State) : (noteCompletion s).line = s.line := rfl
@[simp] theorem noteCompletion_stg (s : State) : (noteCompletion s).stg = s.stg := rfl
@[simp] theorem noteCompletion_dst (s : State) : (noteCompletion s).dst = s.dst := rfl
@[simp] theorem noteCompletion_cfg (s : State) : (noteCompletion s).cfg = s.cfg := rfl
@[simp] theorem noteCompletion_inbox (s : State) : (noteCompletion s).inbox = s.inbox := rfl
@[simp] theorem noteCompletion_responses (s : State) : (noteCompletion s).responses = s.responses := rfl
@[simp] theorem noteCompletion_resultReady (s : State) : (noteCompletion s).resultReady = (s.resultReady || encodeCompleted s) := rfl

/-! ### The flag -/

@[simp] theorem faulted_iff (s : State) : s.faulted = true ↔ s.latch ≠ none := by
  simp [State.faulted, Option.isSome_iff_ne_none]

@[simp] theorem not_faulted_iff (s : State) : s.faulted = false ↔ s.latch = none := by
  simp [State.faulted]

/-- When an encode has completed (R242). -/
theorem encodeCompleted_iff (s : State) :
    encodeCompleted s = true ↔ s.latch = none ∧ s.cphase = .done ∧ s.sphase = .done := by
  simp [encodeCompleted, and_assoc]

end Sys2Proof.Machine
end

