-- ==== Sys2Proof/Laws/Formats.lean ====
section
/-! SUPPORT. Laws of the conversions: when a pixel's bytes are there, what a stored row of triplets reads as, and
where the addresses of a frame lie. -/

namespace Sys2Proof.Machine

/-! ### Pixels made of bytes -/

theorem withThreeBytes_eq_some {m : Memory} {a b c : Nat} {k : Byte → Byte → Byte → Triplet} {p : Triplet} :
    withThreeBytes m a b c k = some p ↔
      ∃ x y z, readByte m a = some x ∧ readByte m b = some y ∧ readByte m c = some z ∧ p = k x y z := by
  unfold withThreeBytes
  cases readByte m a <;> cases readByte m b <;> cases readByte m c <;> simp [eq_comm]

theorem withTwoBytes_eq_some {m : Memory} {a b : Nat} {k : Byte → Byte → Triplet} {p : Triplet} :
    withTwoBytes m a b k = some p ↔ ∃ x y, readByte m a = some x ∧ readByte m b = some y ∧ p = k x y := by
  unfold withTwoBytes
  cases readByte m a <;> cases readByte m b <;> simp [eq_comm]

theorem withThreeBytes_isSome {m : Memory} {a b c : Nat} {k : Byte → Byte → Byte → Triplet}
    (ha : (readByte m a).isSome) (hb : (readByte m b).isSome) (hc : (readByte m c).isSome) :
    (withThreeBytes m a b c k).isSome := by
  obtain ⟨x, hx⟩ := Option.isSome_iff_exists.1 ha
  obtain ⟨y, hy⟩ := Option.isSome_iff_exists.1 hb
  obtain ⟨z, hz⟩ := Option.isSome_iff_exists.1 hc
  simp [withThreeBytes, hx, hy, hz]

theorem withTwoBytes_isSome {m : Memory} {a b : Nat} {k : Byte → Byte → Triplet}
    (ha : (readByte m a).isSome) (hb : (readByte m b).isSome) : (withTwoBytes m a b k).isSome := by
  obtain ⟨x, hx⟩ := Option.isSome_iff_exists.1 ha
  obtain ⟨y, hy⟩ := Option.isSome_iff_exists.1 hb
  simp [withTwoBytes, hx, hy]

/-- A triplet of three bytes depends on those bytes only (R74). -/
theorem withThreeBytes_congr {m m' : Memory} {a b c a' b' c' : Nat} {k : Byte → Byte → Byte → Triplet}
    (ha : readByte m a = readByte m' a') (hb : readByte m b = readByte m' b') (hc : readByte m c = readByte m' c') :
    withThreeBytes m a b c k = withThreeBytes m' a' b' c' k := by
  simp [withThreeBytes, ha, hb, hc]

theorem withTwoBytes_congr {m m' : Memory} {a b a' b' : Nat} {k : Byte → Byte → Triplet}
    (ha : readByte m a = readByte m' a') (hb : readByte m b = readByte m' b') :
    withTwoBytes m a b k = withTwoBytes m' a' b' k := by
  simp [withTwoBytes, ha, hb]

/-- A pixel copied from three bytes in a row stands there as a triplet (R165). -/
theorem planePixel_eq_some {m : Memory} {w x y : Nat} {p : Triplet} :
    planePixel m w x y = some p ↔ TripletAt m (3 * (y * w + x)) p := by
  simp only [planePixel, planeAddr, withThreeBytes_eq_some, TripletAt]
  constructor
  · rintro ⟨a, b, c, ha, hb, hc, rfl⟩
    exact ⟨ha, hb, hc⟩
  · rintro ⟨ha, hb, hc⟩
    exact ⟨_, _, _, ha, hb, hc, rfl⟩

/-! ### `clamp8` (R9) -/

/-- `clamp8` as the printed formula. -/
theorem clamp8_toNat (v : Int) : ((clamp8 v).toNat : Int) = max 0 (min 255 v) := by
  unfold clamp8
  split
  · simp; omega
  · split <;> simp <;> omega

theorem clamp8_shiftRight (v : Int) : ((clamp8 (shiftRight v 8)).toNat : Int) = max 0 (min 255 (v / 256)) := by
  simp [clamp8_toNat, shiftRight]

/-! ### Rows of triplets -/

@[simp] theorem rowBytes_length (ts : List Triplet) : (rowBytes ts).length = 3 * ts.length := by
  induction ts with
  | nil => rfl
  | cons t ts ih =>
    simp only [rowBytes, List.map_cons, List.flatten_cons, List.length_append, List.length_cons] at ih ⊢
    rw [ih]
    simp [tripletBytes]
    omega

theorem rowBytes_get (ts : List Triplet) (i : Nat) :
    (rowBytes ts)[3 * i]? = ts[i]?.map Triplet.r ∧ (rowBytes ts)[3 * i + 1]? = ts[i]?.map Triplet.g
      ∧ (rowBytes ts)[3 * i + 2]? = ts[i]?.map Triplet.b := by
  induction ts generalizing i with
  | nil => simp [rowBytes]
  | cons t ts ih =>
    cases i with
    | zero => simp [rowBytes, tripletBytes]
    | succ i =>
      have h := ih i
      have e : rowBytes (t :: ts) = t.r :: t.g :: t.b :: rowBytes ts := rfl
      simpa [e, Nat.mul_succ] using h

/-- A stored row of triplets reads as those triplets. -/
theorem tripletAt_storeRow {m : Memory} {ts : List Triplet} {i : Nat} {p : Triplet} (h : ts[i]? = some p) :
    TripletAt (storeBytes m 0 (rowBytes ts)) (3 * i) p := by
  have hi : i < ts.length := (List.getElem?_eq_some_iff.1 h).1
  obtain ⟨h0, h1, h2⟩ := rowBytes_get ts i
  simp only [TripletAt, readByte_storeBytes, rowBytes_length, Nat.sub_zero]
  rw [if_pos (by omega), if_pos (by omega), if_pos (by omega), h0, h1, h2, h]
  exact ⟨rfl, rfl, rfl⟩

/-- A stored row leaves no hole below its length. -/
theorem heldBelow_storeRow (m : Memory) (ts : List Triplet) :
    HeldBelow (storeBytes m 0 (rowBytes ts)) (3 * ts.length) := by
  intro a ha
  rw [readByte_storeBytes, if_pos (by simp; omega)]
  simp [ha]

/-! ### Addresses inside the source extent (R66) -/

section
variable {f : Format} {w h pad x y : Nat}

/-- Bytes of row `y` at an offset below the stride's pixel part lie below `h` rows (R65, R66). -/
theorem row_offset_lt {s k : Nat} (hy : y < h) (hk : k < s) : y * s + k < h * s :=
  calc y * s + k < y * s + s := by omega
    _ = (y + 1) * s := by ring
    _ ≤ h * s := Nat.mul_le_mul_right _ hy

theorem group_offset_lt (hx : x < w) (he : w % 2 = 0) {k : Nat} (hk : k < 4) : 4 * (x / 2) + k < 2 * w := by
  omega

theorem lumaAddr_lt (hx : x < w) (hy : y < h) : lumaAddr w x y < w * h := by
  rw [Nat.mul_comm w h]
  exact row_offset_lt hy hx

/-- Both chroma bytes of a pixel lie inside the source extent (R66, R68). -/
theorem chromaAddr_succ_lt (hs : semiPlanar f) (hd : DimensionsFit f w h) (hx : x < w) (hy : y < h) :
    chromaAddr f w h x y + 1 < srcExtent f w h pad := by
  cases f <;> simp [semiPlanar] at hs <;> simp only [chromaAddr, srcExtent]
  case nv12 =>
    have hw := hd.evenWidth rfl
    have hh := hd.evenHeight rfl
    have := row_offset_lt (s := w) (k := 2 * (x / 2) + 1) (show y / 2 < h / 2 by omega) (by omega)
    rw [Nat.mul_comm (h / 2) w] at this
    omega
  case nv16 =>
    have hw := hd.evenWidth rfl
    have := row_offset_lt (s := w) (k := 2 * (x / 2) + 1) hy (by omega)
    rw [Nat.mul_comm h w] at this
    omega
  case nv24 =>
    have := row_offset_lt (s := 2 * w) (k := 2 * x + 1) hy (by omega)
    have e1 : h * (2 * w) = 2 * w * h := by ring
    have e2 : y * (2 * w) = y * 2 * w := by ring
    omega

theorem planeArea_le_extent (hs : semiPlanar f) : w * h ≤ srcExtent f w h pad := by
  cases f <;> simp [semiPlanar] at hs <;> simp [srcExtent]

/-- A provided frame has every byte a semi-planar pixel needs. -/
theorem semiPlanarPixel_isSome {src : Memory} (hs : semiPlanar f) (hd : DimensionsFit f w h)
    (hp : HeldBelow src (srcExtent f w h pad)) (hx : x < w) (hy : y < h) :
    (semiPlanarPixel f src w h x y).isSome := by
  have h1 := chromaAddr_succ_lt (pad := pad) hs hd hx hy
  have h2 := lumaAddr_lt hx hy
  have h3 := planeArea_le_extent (w := w) (h := h) (pad := pad) hs
  exact withThreeBytes_isSome (hp _ (by omega)) (hp _ (by omega)) (hp _ (by omega))

end

/-- A provided frame has every byte a pixel of the five other formats needs. -/
theorem linePixel_isSome {f : Format} {s : State} {x y : Nat} (hs : semiPlanar f = false)
    (hd : DimensionsFit f s.srcWidth.toNat s.srcHeight.toNat)
    (hp : HeldBelow s.src (srcExtent f s.srcWidth.toNat s.srcHeight.toNat s.srcPadding.toNat))
    (hx : x < s.srcWidth.toNat) (hy : y < s.srcHeight.toNat) : (linePixel f s x y).isSome := by
  have row : ∀ k m, k < m * s.srcWidth.toNat →
      y * (s.srcWidth.toNat * m + s.srcPadding.toNat) + k
        < s.srcHeight.toNat * (m * s.srcWidth.toNat + s.srcPadding.toNat) := by
    intro k m hk
    rw [Nat.mul_comm s.srcWidth.toNat m]
    exact row_offset_lt hy (by omega)
  cases f <;> simp [semiPlanar] at hs <;> simp only [srcExtent] at hp <;>
    simp only [linePixel, yuyvPixel, uyvyPixel, rgb565Pixel, rgb24Pixel, bgr24Pixel, groupBase, rowBase, stride,
      bytesPerPixel]
  case yuyv | uyvy =>
    have hw := hd.evenWidth rfl
    refine withThreeBytes_isSome (hp _ ?_) (hp _ ?_) (hp _ ?_) <;>
      · simp only [Nat.add_assoc]
        exact row _ 2 (by omega)
  case rgb565 =>
    refine withTwoBytes_isSome (hp _ (row _ 2 (by omega))) (hp _ ?_)
    rw [Nat.add_assoc]
    exact row _ 2 (by omega)
  case rgb24 =>
    refine withThreeBytes_isSome (hp _ (row _ 3 (by omega))) (hp _ ?_) (hp _ ?_) <;>
      · rw [Nat.add_assoc]
        exact row _ 3 (by omega)
  case bgr24 =>
    refine withThreeBytes_isSome (hp _ ?_) (hp _ ?_) (hp _ (row _ 3 (by omega))) <;>
      · rw [Nat.add_assoc]
        exact row _ 3 (by omega)

/-- A filled PLANE has every byte of a pixel. -/
theorem planePixel_isSome {m : Memory} {w h x y : Nat} (hp : HeldBelow m (3 * w * h)) (hx : x < w) (hy : y < h) :
    (planePixel m w x y).isSome := by
  have h1 : y * w + x < w * h := lumaAddr_lt hx hy
  have h2 : 3 * w * h = 3 * (w * h) := by ring
  simp only [planePixel, planeAddr]
  exact withThreeBytes_isSome (hp _ (by omega)) (hp _ (by omega)) (hp _ (by omega))

/-! ### Scanlines and frames -/

theorem scanline_length {f : Format} {s : State} {y : Nat} {ts : List Triplet} (h : scanline f s y = some ts) :
    ts.length = s.srcWidth.toNat := allSome_range_length h

/-- Entry `x` of a scanline is the pixel at `x`. -/
theorem scanline_get {f : Format} {s : State} {y : Nat} {ts : List Triplet} (h : scanline f s y = some ts)
    {x : Nat} (hx : x < s.srcWidth.toNat) : linePixel f s x y = ts[x]? := allSome_range_get h hx

theorem scanline_of_isSome {f : Format} {s : State} {y : Nat}
    (h : ∀ x, x < s.srcWidth.toNat → (linePixel f s x y).isSome) : ∃ ts, scanline f s y = some ts :=
  allSome_map_of_isSome fun x hx => h x (List.mem_range.1 hx)

theorem frameTriplets_length {f : Format} {src : Memory} {w h : Nat} {ts : List Triplet}
    (ht : frameTriplets f src w h = some ts) : ts.length = w * h := allSome_range_length ht

/-- Entry `y * w + x` of a converted frame is the pixel (x, y) (R69). -/
theorem frameTriplets_get {f : Format} {src : Memory} {w h x y : Nat} {ts : List Triplet}
    (ht : frameTriplets f src w h = some ts) (hx : x < w) (hy : y < h) :
    semiPlanarPixel f src w h x y = ts[y * w + x]? := by
  have hi : y * w + x < w * h := lumaAddr_lt hx hy
  have := allSome_range_get ht hi
  rwa [Nat.add_comm, Nat.add_mul_mod_self_right, Nat.mod_eq_of_lt hx, Nat.add_mul_div_right _ _ (by omega),
    Nat.div_eq_of_lt hx, Nat.zero_add, Nat.add_comm] at this

theorem frameTriplets_of_isSome {f : Format} {src : Memory} {w h : Nat}
    (hp : ∀ x y, x < w → y < h → (semiPlanarPixel f src w h x y).isSome) :
    ∃ ts, frameTriplets f src w h = some ts := by
  refine allSome_map_of_isSome fun i hi => ?_
  have hi := List.mem_range.1 hi
  have hw : 0 < w := Nat.pos_of_ne_zero fun h0 => by simp [h0] at hi
  exact hp _ _ (Nat.mod_lt _ hw) (Nat.div_lt_of_lt_mul hi)

end Sys2Proof.Machine
end

