-- ==== Sys2Proof/Laws/Exec.lean ====
section
/-! SUPPORT. What a command can do, said once: if a command answers a next state then nothing happened in the fault
state, or exactly one fault was raised, or the command had its effect.  Proofs cite `exec_cases` and never unfold a
meaning. -/

namespace Sys2Proof.Machine

variable {s t : State} {r : Result} {i : Instr}

/-! ### The shared operations -/

theorem unlessFaulted_live (h : Live s) : unlessFaulted s r = r := by
  simp [unlessFaulted, h]

theorem unlessFaulted_faulted (h : s.faulted = true) : unlessFaulted s r = .next s := by
  simp [unlessFaulted, h]

theorem unlessFaulted_eq_next :
    unlessFaulted s r = .next t ↔ (s.faulted = true ∧ t = s) ∨ (Live s ∧ r = .next t) := by
  cases h : s.faulted <;> simp [unlessFaulted, h, Live, eq_comm]

theorem raiseFault_eq_next {c : Cause} {op : Byte} :
    raiseFault c op s = .next t ↔ t = { s with latch := some ⟨c, op⟩ } := by
  simp [raiseFault, eq_comm]

theorem appendStaged_eq_next {n : Nat} {k : State → State} :
    appendStaged n s k = .next t ↔ ∃ bs, loadBytes s.stg 0 n = some bs ∧ t = k (appendBytes bs s) := by
  unfold appendStaged
  cases loadBytes s.stg 0 n <;> simp [eq_comm]

theorem appendFits_iff {n : Nat} :
    appendFits n s = true ↔ s.dstUsed.toNat + n ≤ s.cfg.dstLimit.toNat := by
  simp [appendFits]

/-- DST_USED after an append that fits: no wrap (R184, R7). -/
theorem appendBytes_used {bs : List Byte} (h : s.dstUsed.toNat + bs.length ≤ s.cfg.dstLimit.toNat) :
    (appendBytes bs s).dstUsed.toNat = s.dstUsed.toNat + bs.length := by
  have := s.cfg.dstLimit.isLt
  simp only [appendBytes_dstUsed, BitVec.toNat_ofNat]
  omega

/-- DST_CAP after an append that fits: grown to exactly what is needed, never shrunk (R184). -/
theorem appendBytes_cap {bs : List Byte} (h : s.dstUsed.toNat + bs.length ≤ s.cfg.dstLimit.toNat) :
    (appendBytes bs s).dstCap.toNat = max s.dstCap.toNat (s.dstUsed.toNat + bs.length) := by
  have := s.cfg.dstLimit.isLt
  simp only [appendBytes_dstCap]
  split
  · simp only [BitVec.toNat_ofNat]
    omega
  · omega

/-! ### Registers by index -/

theorem regOfIndex_registerIndex (r : RegName) : regOfIndex (registerIndex r) = some r := by
  cases r <;> rfl

theorem regOfIndex_eq_some {x : Byte} {r : RegName} : regOfIndex x = some r ↔ registerIndex r = x := by
  constructor
  · intro h
    unfold regOfIndex at h
    split at h
    case h_13 => cases h
    all_goals
      rename_i hn
      cases h
      exact (byte_of_toNat hn).symm
  · rintro rfl
    exact regOfIndex_registerIndex r

theorem regOfIndex_eq_none {x : Byte} : regOfIndex x = none ↔ 0x0C ≤ x.toNat := by
  constructor
  · intro h
    refine Nat.le_of_not_lt fun hx => ?_
    unfold regOfIndex at h
    split at h
    case h_13 => simp only [imp_false] at *; omega
    all_goals cases h
  · intro h
    unfold regOfIndex
    split <;> first | omega | rfl

/-- The registers marked RW are those with the indices 0x01 .. 0x04 (R23, R112). -/
theorem hostMayWrite_iff {r : RegName} :
    hostMayWrite r = true ↔ 1 ≤ (registerIndex r).toNat ∧ (registerIndex r).toNat ≤ 4 := by
  cases r <;> decide

/-! ### Format tags -/

/-- The tag of a format (R96). -/
def tagOf : Format → Nat
  | .yuyv => 1
  | .uyvy => 2
  | .rgb565 => 3
  | .rgb24 => 4
  | .bgr24 => 5
  | .nv12 => 6
  | .nv16 => 7
  | .nv24 => 8

theorem formatOfTag_eq_some {tag : Half} {f : Format} : formatOfTag tag = some f ↔ tag.toNat = tagOf f := by
  constructor
  · intro h
    unfold formatOfTag at h
    split at h
    case h_9 => cases h
    all_goals
      rename_i hn
      cases h
      exact hn
  · intro h
    unfold formatOfTag
    cases f <;> simp only [tagOf] at h <;> simp only [h]

theorem formatOfTag_eq_none {tag : Half} : formatOfTag tag = none ↔ ¬(1 ≤ tag.toNat ∧ tag.toNat ≤ 8) := by
  constructor
  · intro h hx
    unfold formatOfTag at h
    split at h
    case h_9 => simp only [imp_false] at *; omega
    all_goals cases h
  · intro h
    unfold formatOfTag
    split <;> first | omega | rfl

theorem semiPlanar_iff {f : Format} : semiPlanar f = true ↔ 6 ≤ tagOf f := by cases f <;> decide

theorem sharesColumns_iff {f : Format} :
    sharesColumns f = true ↔ tagOf f = 1 ∨ tagOf f = 2 ∨ tagOf f = 6 ∨ tagOf f = 7 := by cases f <;> decide

theorem sharesRows_iff {f : Format} : sharesRows f = true ↔ tagOf f = 6 := by cases f <;> decide

/-- CONV_START's remaining tests pass exactly when the dimensions fit and PLANE has room (R121 to R123). -/
theorem frameFault_eq_none {f : Format} :
    frameFault f s = none ↔ DimensionsFit f s.srcWidth.toNat s.srcHeight.toNat ∧
      (semiPlanar f → 3 * s.srcWidth.toNat * s.srcHeight.toNat ≤ s.cfg.planeCap) := by
  unfold frameFault
  constructor
  · intro h
    simp only at h
    split at h
    · cases h
    · split at h
      · cases h
      · split at h
        · cases h
        · split at h
          · cases h
          · rename_i h1 h2 h3 h4
            refine ⟨⟨by omega, by omega, fun hc => ?_, fun hr => ?_⟩, fun hp => ?_⟩
            · exact Nat.mod_two_ne_one.1 fun h => h2 ⟨hc, h⟩
            · exact Nat.mod_two_ne_one.1 fun h => h3 ⟨hr, h⟩
            · exact Nat.le_of_not_lt fun h => h4 ⟨hp, h⟩
  · rintro ⟨⟨hw, hh, hc, hr⟩, hp⟩
    simp only
    rw [if_neg (by omega), if_neg, if_neg, if_neg]
    · exact fun h => absurd (hp h.1) (by omega)
    · exact fun h => absurd (hr h.1) (by omega)
    · exact fun h => absurd (hc h.1) (by omega)

/-- Which dimensions a format does not accept (R122, R123). -/
theorem not_dimensionsFit_iff {f : Format} {w h : Nat} :
    ¬DimensionsFit f w h ↔ w = 0 ∨ h = 0 ∨ (w % 2 = 1 ∧ (tagOf f = 1 ∨ tagOf f = 2 ∨ tagOf f = 6 ∨ tagOf f = 7))
      ∨ (h % 2 = 1 ∧ tagOf f = 6) := by
  constructor
  · intro hn
    by_contra hc
    refine hn ⟨by omega, by omega, ?_, ?_⟩
    · rw [sharesColumns_iff]
      omega
    · rw [sharesRows_iff]
      omega
  · rintro hc ⟨h1, h2, h3, h4⟩
    rw [sharesColumns_iff] at h3
    rw [sharesRows_iff] at h4
    omega

/-- Bad dimensions are tested before the capacity (R208). -/
theorem frameFault_of_dims {f : Format} (h : ¬DimensionsFit f s.srcWidth.toNat s.srcHeight.toNat) :
    frameFault f s = some .contractViolation := by
  unfold frameFault
  simp only
  split
  · rfl
  · split
    · rfl
    · split
      · rfl
      · next h1 h2 h3 =>
        refine absurd ⟨by omega, by omega, fun hc => ?_, fun hr => ?_⟩ h
        · exact Nat.mod_two_ne_one.1 fun h => h2 ⟨hc, h⟩
        · exact Nat.mod_two_ne_one.1 fun h => h3 ⟨hr, h⟩

/-- Too small a PLANE is an EncodeOOM (R121, R202). -/
theorem frameFault_of_capacity {f : Format} (h : DimensionsFit f s.srcWidth.toNat s.srcHeight.toNat)
    (hs : semiPlanar f = true) (hp : s.cfg.planeCap < 3 * s.srcWidth.toNat * s.srcHeight.toNat) :
    frameFault f s = some .encodeOOM := by
  unfold frameFault
  obtain ⟨h1, h2, h3, h4⟩ := h
  simp only
  rw [if_neg (by omega), if_neg, if_neg, if_pos ⟨hs, hp⟩]
  · exact fun hr => absurd (h4 hr.1) (by omega)
  · exact fun hc => absurd (h3 hc.1) (by omega)

/-! ### One command -/

/-- The effect of a command that is not turned away: what each command rule says it does, and when. -/
def Effect (i : Instr) (s t : State) : Prop :=
  match i with
  | .nop => t = s
  | .wrcfg reg val => ∃ r, regOfIndex reg = some r ∧ hostMayWrite r = true ∧ s.cphase ≠ .active
      ∧ t = writeConfig r val s
  | .rdreg reg => t = { s with responses := s.responses ++ [readIndex reg s] }
  | .convStart => s.cphase ≠ .active ∧ ∃ f, formatOfTag s.srcFormat = some f ∧ frameFault f s = none ∧
      ((semiPlanar f = false ∧ t = beginFrame s) ∨
       (semiPlanar f = true ∧ ∃ ts, frameTriplets f s.src s.srcWidth.toNat s.srcHeight.toNat = some ts ∧
          t = beginFrame { s with plane := storeBytes s.plane 0 (rowBytes ts) }))
  | .convLine => s.cphase = .active ∧ ∃ f ts, formatOfTag s.srcFormat = some f ∧
      scanline f s s.nextRow.toNat = some ts ∧ t = deliverRow ts s
  | .sinkInit => s.sphase ≠ .opened ∧
      t = { s with
        dstUsed := 0#32
        stgRemaining := 0x1000#13
        dstFormat := Config.jpegTag
        dstWidth := s.srcWidth
        dstHeight := s.srcHeight
        sphase := .opened
        resultReady := false }
  | .push byte => s.sphase = .opened ∧ 1 ≤ s.stgRemaining.toNat ∧ s.stgRemaining.toNat ≤ Config.stgCapacity ∧
      ((s.stgRemaining.toNat ≠ 1 ∧ t = stageByte byte s) ∨
       (s.stgRemaining.toNat = 1 ∧ s.dstUsed.toNat + Config.stgCapacity ≤ s.cfg.dstLimit.toNat ∧
          ∃ bs, loadBytes (stageByte byte s).stg 0 Config.stgCapacity = some bs ∧
            t = emptyStaging (appendBytes bs (stageByte byte s))))
  | .sinkFinal => s.sphase = .opened ∧ s.stgRemaining.toNat ≤ Config.stgCapacity ∧
      s.dstUsed.toNat + (Config.stgCapacity - s.stgRemaining.toNat) ≤ s.cfg.dstLimit.toNat ∧
      ∃ bs, loadBytes s.stg 0 (Config.stgCapacity - s.stgRemaining.toNat) = some bs ∧
        t = closeSink (appendBytes bs s)

/-- STATUS is a function of its parts (R25). -/
theorem statusWord_congr (h1 : t.cphase = s.cphase) (h2 : t.sphase = s.sphase) (h3 : t.latch = s.latch) :
    statusWord t = statusWord s := by
  simp [statusWord, h1, h2, h3]

/-- If a command answers a next state, one of these three holds (R110, R204, R205). -/
theorem exec_cases (h : exec i s = .next t) :
    (s.faulted = true ∧ t = s ∧ i ≠ .nop ∧ ∀ x, i ≠ .rdreg x) ∨
      (Live s ∧ (i ≠ .nop ∧ ∀ x, i ≠ .rdreg x) ∧ ∃ c, t = { s with latch := some ⟨c, i.opByte⟩ }) ∨
      ((Live s ∨ i = .nop ∨ ∃ x, i = .rdreg x) ∧ Effect i s t) := by
  cases i with
  | nop =>
    simp only [exec, execNop, Host.Outcome.next.injEq] at h
    exact .inr (.inr ⟨.inr (.inl rfl), h.symm⟩)
  | rdreg reg =>
    simp only [exec, execRdreg, Host.Outcome.next.injEq] at h
    exact .inr (.inr ⟨.inr (.inr ⟨_, rfl⟩), h.symm⟩)
  | wrcfg reg val =>
    simp only [exec, execWrcfg, unlessFaulted_eq_next] at h
    rcases h with ⟨hf, rfl⟩ | ⟨hl, h⟩
    · exact .inl ⟨hf, rfl, by simp, by simp⟩
    right
    split at h
    · exact .inl ⟨hl, by simp, _, raiseFault_eq_next.1 h⟩
    · next r hr =>
      split at h
      · exact .inl ⟨hl, by simp, _, raiseFault_eq_next.1 h⟩
      · next hw =>
        split at h
        · exact .inl ⟨hl, by simp, _, raiseFault_eq_next.1 h⟩
        · next hc =>
          exact .inr ⟨.inl hl, r, hr, by simpa using hw, hc, (Host.Outcome.next.inj h).symm⟩
  | convStart =>
    simp only [exec, execConvStart, unlessFaulted_eq_next] at h
    rcases h with ⟨hf, rfl⟩ | ⟨hl, h⟩
    · exact .inl ⟨hf, rfl, by simp, by simp⟩
    right
    split at h
    · exact .inl ⟨hl, by simp, _, raiseFault_eq_next.1 h⟩
    · next hc =>
      split at h
      · exact .inl ⟨hl, by simp, _, raiseFault_eq_next.1 h⟩
      · next f hf =>
        split at h
        · exact .inl ⟨hl, by simp, _, raiseFault_eq_next.1 h⟩
        · next hn =>
          refine .inr ⟨.inl hl, hc, f, hf, hn, ?_⟩
          unfold startFrame at h
          split at h
          · next hs =>
            split at h
            · next ts hts => exact .inr ⟨hs, ts, hts, (Host.Outcome.next.inj h).symm⟩
            · cases h
          · next hs => exact .inl ⟨by simpa using hs, (Host.Outcome.next.inj h).symm⟩
  | convLine =>
    simp only [exec, execConvLine, unlessFaulted_eq_next] at h
    rcases h with ⟨hf, rfl⟩ | ⟨hl, h⟩
    · exact .inl ⟨hf, rfl, by simp, by simp⟩
    right
    split at h
    · next hc =>
      split at h
      · cases h
      · next f hf =>
        split at h
        · next ts hts => exact .inr ⟨.inl hl, hc, f, ts, hf, hts, (Host.Outcome.next.inj h).symm⟩
        · cases h
    · exact .inl ⟨hl, by simp, _, raiseFault_eq_next.1 h⟩
  | sinkInit =>
    simp only [exec, execSinkInit, unlessFaulted_eq_next] at h
    rcases h with ⟨hf, rfl⟩ | ⟨hl, h⟩
    · exact .inl ⟨hf, rfl, by simp, by simp⟩
    right
    split at h
    · exact .inl ⟨hl, by simp, _, raiseFault_eq_next.1 h⟩
    · next hc => exact .inr ⟨.inl hl, hc, (Host.Outcome.next.inj h).symm⟩
  | push byte =>
    simp only [exec, execPush, unlessFaulted_eq_next] at h
    rcases h with ⟨hf, rfl⟩ | ⟨hl, h⟩
    · exact .inl ⟨hf, rfl, by simp, by simp⟩
    right
    split at h
    · next hc =>
      split at h
      · cases h
      · next hr =>
        split at h
        · next h1 =>
          split at h
          · next hfit =>
            exact .inr ⟨.inl hl, hc, by omega, by omega, .inr ⟨h1, appendFits_iff.1 hfit, appendStaged_eq_next.1 h⟩⟩
          · exact .inl ⟨hl, by simp, _, raiseFault_eq_next.1 h⟩
        · next h1 =>
          exact .inr ⟨.inl hl, hc, by omega, by omega, .inl ⟨h1, (Host.Outcome.next.inj h).symm⟩⟩
    · exact .inl ⟨hl, by simp, _, raiseFault_eq_next.1 h⟩
  | sinkFinal =>
    simp only [exec, execSinkFinal, unlessFaulted_eq_next] at h
    rcases h with ⟨hf, rfl⟩ | ⟨hl, h⟩
    · exact .inl ⟨hf, rfl, by simp, by simp⟩
    right
    split at h
    · next hc =>
      split at h
      · cases h
      · next hr =>
        split at h
        · next hfit =>
          exact .inr ⟨.inl hl, hc, by omega, appendFits_iff.1 hfit, appendStaged_eq_next.1 h⟩
        · exact .inl ⟨hl, by simp, _, raiseFault_eq_next.1 h⟩
    · exact .inl ⟨hl, by simp, _, raiseFault_eq_next.1 h⟩

end Sys2Proof.Machine
end

