-- ==== Sys2Proof/Laws/PerInstr.lean ====
section
/-! SUPPORT. Laws stated of every command as syntax, one lemma for each constructor. -/

/-- The word the encoder writes for a command carries the
command's opcode byte and operands in its fields (R90, R93). -/
def Sys2Proof.Laws.WordFields.Statement (i : Sys2Proof.Instr) : Prop :=
  Sys2Proof.opField (Sys2Proof.encode i) = i.opByte ∧ i.fieldsOf (Sys2Proof.encode i)

theorem Sys2Proof.Laws.WordFields.nop : Sys2Proof.Laws.WordFields.Statement .nop := by
  simp [Statement, encode, Instr.opByte, Instr.fieldsOf]

theorem Sys2Proof.Laws.WordFields.wrcfg (reg : Sys2Proof.Byte) (val : Sys2Proof.Half) :
    Sys2Proof.Laws.WordFields.Statement (.wrcfg reg val) := by
  simp [Statement, encode, Instr.opByte, Instr.fieldsOf]

theorem Sys2Proof.Laws.WordFields.rdreg (reg : Sys2Proof.Byte) :
    Sys2Proof.Laws.WordFields.Statement (.rdreg reg) := by
  simp [Statement, encode, Instr.opByte, Instr.fieldsOf]

theorem Sys2Proof.Laws.WordFields.convStart : Sys2Proof.Laws.WordFields.Statement .convStart := by
  simp [Statement, encode, Instr.opByte, Instr.fieldsOf]

theorem Sys2Proof.Laws.WordFields.convLine : Sys2Proof.Laws.WordFields.Statement .convLine := by
  simp [Statement, encode, Instr.opByte, Instr.fieldsOf]

theorem Sys2Proof.Laws.WordFields.sinkInit : Sys2Proof.Laws.WordFields.Statement .sinkInit := by
  simp [Statement, encode, Instr.opByte, Instr.fieldsOf]

theorem Sys2Proof.Laws.WordFields.push (byte : Sys2Proof.Byte) :
    Sys2Proof.Laws.WordFields.Statement (.push byte) := by
  simp [Statement, encode, Instr.opByte, Instr.fieldsOf]

theorem Sys2Proof.Laws.WordFields.sinkFinal : Sys2Proof.Laws.WordFields.Statement .sinkFinal := by
  simp [Statement, encode, Instr.opByte, Instr.fieldsOf]
end

