-- ==== Sys2Proof/Laws/Spaces.lean ====
section
/-! SUPPORT. Laws of the fill levels and sizes of the spaces, and of the staging counter. -/

namespace Sys2Proof.Machine

variable {m : Memory} {a n k : Nat} {bs : List Byte} {s : State}

/-- A write inside a space stays inside it (R30). -/
theorem withinSpace_storeBytes (h : WithinSpace m n) (hb : a + bs.length ≤ n) :
    WithinSpace (storeBytes m a bs) n := by
  intro c hc
  rcases mem_storeBytes hc with h1 | h1
  · exact h c h1
  · omega

theorem heldBelow_mono (h : HeldBelow m n) (hk : k ≤ n) : HeldBelow m k := fun a ha => h a (by omega)

/-- A write takes no value away. -/
theorem heldBelow_storeBytes (h : HeldBelow m n) : HeldBelow (storeBytes m a bs) n :=
  fun b hb => isSome_storeBytes (h b hb)

/-- A write at the fill level raises it by what it writes (R182, R184). -/
theorem heldBelow_extend (h : HeldBelow m n) : HeldBelow (storeBytes m n bs) (n + bs.length) := by
  intro a ha
  by_cases hn : a < n
  · exact isSome_storeBytes (h a hn)
  · rw [readByte_storeBytes, if_pos (by omega), List.getElem?_eq_getElem (by omega)]
    rfl

/-- Bytes that all hold a value can be loaded. -/
theorem loadBytes_of_heldBelow (h : HeldBelow m n) : ∃ bs, loadBytes m 0 n = some bs :=
  loadBytes_of_held fun i hi => by rw [Nat.zero_add]; exact h i hi

/-- STG_REMAINING counts down by one (R182). -/
theorem remaining_pred (h : 1 ≤ s.stgRemaining.toNat) :
    (s.stgRemaining - 1#13).toNat = s.stgRemaining.toNat - 1 := by
  have := s.stgRemaining.isLt
  simp
  omega

/-- NEXT_ROW counts up by one below the height (R22). -/
theorem nextRow_succ (h : s.nextRow.toNat < s.srcHeight.toNat) :
    (s.nextRow + 1#16).toNat = s.nextRow.toNat + 1 := by
  have := s.srcHeight.isLt
  simp
  omega

end Sys2Proof.Machine
end

