-- ==== Sys2Proof/Laws/Step.lean ====
section
/-! SUPPORT. What a step can do, said once: a step that answers a next state waited, ran one word, took the host's
write or was reset. -/

namespace Sys2Proof.Machine

variable {s t : State}

/-- A command that has its effect records no fault (R204). -/
theorem effect_latch {i : Instr} (h : Effect i s t) : t.latch = s.latch := by
  cases i with
  | nop => obtain rfl : t = s := h; rfl
  | rdreg x => obtain rfl : t = _ := h; rfl
  | wrcfg reg val => obtain ⟨r, _, _, _, rfl⟩ := h; simp
  | convStart => obtain ⟨_, f, _, _, ⟨_, rfl⟩ | ⟨_, ts, _, rfl⟩⟩ := h <;> rfl
  | convLine => obtain ⟨_, f, ts, _, _, rfl⟩ := h; rfl
  | sinkInit => obtain ⟨_, rfl⟩ := h; rfl
  | push b => obtain ⟨_, _, _, ⟨_, rfl⟩ | ⟨_, _, bs, _, rfl⟩⟩ := h <;> rfl
  | sinkFinal => obtain ⟨_, _, _, bs, _, rfl⟩ := h; rfl

/-- A command that leaves no fault recorded found none (R206). -/
theorem exec_live_before {i : Instr} (h : exec i s = .next t) (ht : Live t) : Live s := by
  rcases exec_cases h with ⟨_, rfl, _⟩ | ⟨hl, _⟩ | ⟨_, he⟩
  · exact ht
  · exact hl
  · simpa [Live, State.faulted, effect_latch he] using ht

/-- A command that leaves no fault recorded had its effect (R110, R205). -/
theorem exec_effect {i : Instr} (h : exec i s = .next t) (ht : Live t) : Effect i s t := by
  rcases exec_cases h with ⟨hf, rfl, _⟩ | ⟨_, _, c, rfl⟩ | ⟨_, he⟩
  · exact absurd ht (by simp [Live, hf])
  · exact absurd ht (by simp [Live, State.faulted])
  · exact he

/-- A look gives the byte that stands there (R63). -/
theorem lookAt_eq_ok {m : Memory} {a : Nat} {b : Byte} : lookAt m a = .ok b ↔ readByte m a = some b := by
  unfold lookAt
  cases readByte m a <;> simp

/-- A host's write that is taken (R247). -/
theorem hostWriteSrc_eq_next {a : Nat} {bs : List Byte} (h : hostWriteSrc a bs s = .next t) :
    a + bs.length ≤ Config.srcSpace ∧ srcWritable s = true ∧ t = { s with src := storeBytes s.src a bs } := by
  unfold hostWriteSrc at h
  split at h
  · cases h
  · split at h
    · next h1 h2 => exact ⟨by omega, h2, (Host.Outcome.next.inj h).symm⟩
    · cases h

/-- Both ways a reset leaves the block (R230). -/
theorem resetAbandoning_cases (w : Word) (s : State) :
    resetAbandoning w s = resetBlock s ∨ resetAbandoning w s = { resetBlock s with dst := [] } := by
  unfold resetAbandoning
  split
  · split <;> simp
  · simp

/-- What a word on the port can do (R91, R94, R205). -/
theorem runWord_cases {w : Word} (h : runWord w s = .next t) :
    (∃ i, decode w = .ok i ∧ exec i s = .next t) ∨ (s.faulted = true ∧ t = s) ∨
      (Live s ∧ t = { s with latch := some ⟨.contractViolation, opField w⟩ }) := by
  unfold runWord at h
  split at h
  · next i hi => exact .inl ⟨i, hi, h⟩
  · exact (unlessFaulted_eq_next.1 h).imp id (And.imp id raiseFault_eq_next.1) |>.elim
      (fun h => .inr (.inl h)) fun h => .inr (.inr h)

/-- What a step can do (R247). -/
theorem step_cases (h : step s = .next t) :
    (s.inbox = [] ∧ t = s) ∨ ∃ rest,
      (∃ w, s.inbox = .command w :: rest ∧ runWord w { s with inbox := rest } = .next t) ∨
      (∃ a bs, s.inbox = .hostWriteSrc a bs :: rest ∧ hostWriteSrc a bs { s with inbox := rest } = .next t) ∨
      (s.inbox = .reset :: rest ∧ t = resetBlock { s with inbox := rest }) ∨
      (∃ w, s.inbox = .resetDuring w :: rest ∧ t = resetAbandoning w { s with inbox := rest }) := by
  unfold step at h
  split at h
  · next hi => exact .inl ⟨hi, (Host.Outcome.next.inj h).symm⟩
  · next m rest hi =>
    refine .inr ⟨rest, ?_⟩
    cases m with
    | command w => exact .inl ⟨w, hi, h⟩
    | hostWriteSrc a bs => exact .inr (.inl ⟨a, bs, hi, h⟩)
    | reset => exact .inr (.inr (.inl ⟨hi, (Host.Outcome.next.inj h).symm⟩))
    | resetDuring w => exact .inr (.inr (.inr ⟨w, hi, (Host.Outcome.next.inj h).symm⟩))

/-- Running two lists of commands is running them joined (R91). -/
theorem runCommands_append (a b : List Instr) (s : State) :
    runCommands (a ++ b) s = match runCommands a s with
      | .next t => runCommands b t
      | .fault f => .fault f
      | .refused r => .refused r := by
  induction a generalizing s with
  | nil => rfl
  | cons i a ih =>
    simp only [List.cons_append, runCommands]
    cases exec i s <;> simp [ih]

/-- A property every command keeps is kept by a run. -/
theorem runCommands_keeps {P : State → Prop} (hP : ∀ i s t, P s → exec i s = .next t → P t) {cmds : List Instr}
    (hs : P s) (h : runCommands cmds s = .next t) : P t := by
  induction cmds generalizing s with
  | nil => exact Host.Outcome.next.inj h ▸ hs
  | cons i rest ih =>
    simp only [runCommands] at h
    split at h
    · next u hu => exact ih (hP i s u hs hu) h
    · cases h
    · cases h

end Sys2Proof.Machine
end

