-- ==== Sys2Proof/Tests/Slice0.lean ====
section
/-! SUPPORT. Tests: the well-formedness checks, words written out from spec/30_encoding.md R90 and R92, one step of
each command against the worked examples of spec/95_test_vectors.md, and, for each obligation that has hypotheses, a
concrete state and operands that meet all of them together. -/

namespace Sys2Proof.Tests

open Sys2Proof.Machine

/-! ### Small states -/

/-- The reset state of a block with these parameters. -/
def block (planeCap : Nat) (dstLimit : BitVec 32) : State := { State.reset with cfg := ⟨planeCap, dstLimit⟩ }

/-- A block configured for a frame, with SRC bytes from address 0. -/
def framed (tag w h pad : Half) (src : List Byte) : State :=
  { block 12 5000#32 with
    srcFormat := tag, srcWidth := w, srcHeight := h, srcPadding := pad, src := storeBytes [] 0 src }

/-- The same block with the frame in progress at row `y`. -/
def inFrame (tag w h pad y : Half) (src : List Byte) : State :=
  { framed tag w h pad src with cphase := .active, nextRow := y }

/-- An open sink with bytes staged and DST_USED = `used`. -/
def openSink (dstLimit used : BitVec 32) (staged : List Byte) : State :=
  { block 12 dstLimit with
    sphase := .opened, dstUsed := used, dstCap := used, stgRemaining := BitVec.ofNat 13 (4096 - staged.length)
    stg := storeBytes [] 0 staged }

/-- A block with a fault recorded. -/
def faultedBlock : State := { block 12 5000#32 with latch := some ⟨.contractViolation, 0x30#8⟩ }

/-- A test of the state a command leaves. -/
def leaves (r : Result) (p : State → Bool) : Bool :=
  match r with
  | .next t => p t
  | .fault _ => false
  | .refused _ => false

/-- STATUS of the state a command leaves. -/
def statusIs (r : Result) (v : Word) : Bool := leaves r fun t => regValue .status t == v

/-- A look that gives this byte. -/
def leavesByte (r : Except Refusal Byte) (b : Byte) : Bool :=
  match r with
  | .ok x => x == b
  | .error _ => false

/-- The first bytes of a memory. -/
def firstBytes (m : Memory) (n : Nat) : Option (List Byte) := loadBytes m 0 n

/-! ### Well-formedness: each check refuses a term -/

theorem test_wf_refuses_reg : (AsmLine.wrcfg 256 0).wellFormed = false ∧ (AsmLine.wrcfg 255 0).wellFormed = true := by
  decide
theorem test_wf_refuses_val : (AsmLine.wrcfg 1 65536).wellFormed = false := by decide
theorem test_wf_refuses_rdreg : (AsmLine.rdreg 256).wellFormed = false := by decide
theorem test_wf_refuses_byte : (AsmLine.push 256).wellFormed = false := by decide
theorem test_wf_refuses_setFrame_fmt : (AsmLine.setFrame 65536 1 1 0).wellFormed = false := by decide
theorem test_wf_refuses_setFrame_w : (AsmLine.setFrame 1 65536 1 0).wellFormed = false := by decide
theorem test_wf_refuses_setFrame_h : (AsmLine.setFrame 1 1 65536 0).wellFormed = false := by decide
theorem test_wf_refuses_setFrame_pad : (AsmLine.setFrame 1 1 1 65536).wellFormed = false := by decide
theorem test_wf_refuses_pushN : (AsmLine.pushN 0 [1, 256]).wellFormed = false := by decide
theorem test_wf_refuses_script_line : (Script.line (.push 256) .nil).wellFormed = false := by decide
theorem test_wf_refuses_script_body :
    (Script.rep 2 (.line (.push 256) .nil) (.line .nop .nil)).wellFormed = false := by decide

/-! ### Decoding: words written out bit by bit as op, a, imm16 (R90, R92; V1) -/

theorem test_decode_nop : decode 0b00000000_00000000_0000000000000000#32 = .ok .nop := by decide
theorem test_decode_wrcfg : decode 0b00000001_00000010_0000001010000000#32 = .ok (.wrcfg 2#8 640#16) := by decide
theorem test_decode_rdreg : decode 0b00000010_00000111_0000000000000000#32 = .ok (.rdreg 7#8) := by decide
theorem test_decode_convStart : decode 0b00010000_00000000_0000000000000000#32 = .ok .convStart := by decide
theorem test_decode_convLine : decode 0b00010001_00000000_0000000000000000#32 = .ok .convLine := by decide
theorem test_decode_sinkInit : decode 0b00100000_00000000_0000000000000000#32 = .ok .sinkInit := by decide
theorem test_decode_push : decode 0b00100001_00000000_0000000011011000#32 = .ok (.push 0xD8#8) := by decide
theorem test_decode_sinkFinal : decode 0b00100010_00000000_0000000000000000#32 = .ok .sinkFinal := by decide
theorem test_decode_illegal_rdreg : decode 0x02000001#32 = .error .reservedBits := by decide
theorem test_decode_illegal_convStart : decode 0x10010000#32 = .error .reservedBits := by decide
theorem test_decode_illegal_opcodes :
    decode 0x03000000#32 = .error .undefinedOpcode ∧ decode 0x23000000#32 = .error .undefinedOpcode ∧
      decode 0x30000000#32 = .error .undefinedOpcode ∧ decode 0xFFFFFFFF#32 = .error .undefinedOpcode := by decide
theorem test_encode_setFrame :
    (AsmLine.setFrame 6 640 480 65535).expand.map encode =
      [0x01010006#32, 0x01020280#32, 0x010301E0#32, 0x0104FFFF#32] := by decide
theorem test_encode_script :
    (Script.rep 2 (.line .convLine .nil) (.line (.pushN 255 [216]) .nil)).expand.map encode =
      [0x11000000#32, 0x11000000#32, 0x210000FF#32, 0x210000D8#32] := by decide

/-! ### One step of each command (V2 to V11, P1 to P5) -/

/-- V2: an illegal word. -/
theorem test_illegal_word : statusIs (runWord 0x30000000#32 (block 12 5000#32)) 0x3070#32 = true := by decide
/-- V2: an illegal RDREG records its opcode and responds nothing. -/
theorem test_illegal_rdreg :
    leaves (runWord 0x02000001#32 (block 12 5000#32))
      (fun t => regValue .status t == 0x0270#32 && decide (t.responses = [])) = true := by decide
/-- R111. -/
theorem test_nop : exec .nop faultedBlock = .next faultedBlock := by rfl
/-- R112's example. -/
theorem test_wrcfg : leaves (exec (.wrcfg 2#8 640#16) (block 12 5000#32)) (fun t => t.srcWidth == 640#16) = true := by
  decide
/-- V2: WRCFG in C_ACTIVE. -/
theorem test_wrcfg_active : statusIs (exec (.wrcfg 2#8 5#16) (inFrame 4 1 2 0 0 [])) 0x0171#32 = true := by decide
/-- R113's example: STG_REMAINING after reset. -/
theorem test_rdreg : leaves (exec (.rdreg 6#8) (block 12 5000#32)) (fun t => t.responses == [0x00001000#32]) = true := by
  decide
/-- P5: RDREG STATUS in the fault state. -/
theorem test_rdreg_faulted :
    leaves (exec (.rdreg 0#8) faultedBlock) (fun t => t.responses == [0x00003070#32]) = true := by decide
/-- P3 and R162's example: the NV12 plane. -/
theorem test_convStart_nv12 :
    leaves (exec .convStart (framed 6 2 2 0 [0x51#8, 0x91#8, 0x29#8, 0xEB#8, 0x5A#8, 0xF0#8]))
      (fun t => firstBytes t.plane 12 == some [0xFF#8, 0#8, 0#8, 0xFF#8, 0x4A#8, 0x4A#8, 0xD0#8, 0#8, 0#8, 0xFF#8,
        0xB3#8, 0xB2#8] && regValue .status t == 0x0001#32) = true := by decide
/-- V11: PLANE_CAP = 11 is one byte too small. -/
theorem test_convStart_oom :
    statusIs (exec .convStart { framed 6 2 2 0 [] with cfg := ⟨11, 5000#32⟩ }) 0x1050#32 = true := by decide
/-- P1, row 1: stride 5, little-endian RGB565, the last row. -/
theorem test_convLine_rgb565 :
    leaves (exec .convLine
        (inFrame 3 2 2 1 1 [0#8, 0xF8#8, 0xE0#8, 7#8, 0xAA#8, 0x1F#8, 0#8, 0xFF#8, 0xFF#8, 0xBB#8]))
      (fun t => firstBytes t.line 6 == some [0#8, 0#8, 0xF8#8, 0xF8#8, 0xFC#8, 0xF8#8] &&
        regValue .status t == 0x0002#32 && t.nextRow == 2#16) = true := by decide
/-- V8: UYVY. -/
theorem test_convLine_uyvy :
    leaves (exec .convLine (inFrame 2 4 1 0 0 [0x54#8, 0x4C#8, 0xFF#8, 0x10#8, 0x80#8, 0x80#8, 0x80#8, 0xEB#8]))
      (fun t => firstBytes t.line 12 == some [0xFE#8, 0#8, 0#8, 0xC2#8, 0#8, 0#8, 0x80#8, 0x80#8, 0x80#8, 0xEB#8,
        0xEB#8, 0xEB#8]) = true := by decide
/-- V10, row 1. -/
theorem test_sinkInit :
    leaves (exec .sinkInit { block 12 5000#32 with srcWidth := 4, srcHeight := 3, dstCap := 3, dstUsed := 3 })
      (fun t => regValue .status t == 0x0004#32 && t.dstUsed == 0#32 && t.dstCap == 3#32 &&
        t.dstFormat == 0x0010#16 && t.dstWidth == 4#16 && t.dstHeight == 3#16) = true := by decide
/-- V2: a second SINK_INIT. -/
theorem test_sinkInit_open : statusIs (exec .sinkInit (openSink 5000 0 [])) 0x2074#32 = true := by decide
/-- V10, row 2. -/
theorem test_push :
    leaves (exec (.push 0xFF#8) (openSink 5000 0 []))
      (fun t => firstBytes t.stg 1 == some [0xFF#8] && t.stgRemaining == 4095#13 && t.dstUsed == 0#32) = true := by
  decide
/-- V10, row 4: the byte that would fill the block when the destination cannot take it. -/
theorem test_push_oom :
    leaves (exec (.push 0#8) { openSink 4095 0 [] with stgRemaining := 1#13 })
      (fun t => regValue .status t == 0x2154#32 && t.stgRemaining == 1#13 && decide (t.stg = [])) = true := by decide
/-- V10, row 5. -/
theorem test_sinkFinal :
    leaves (exec .sinkFinal (openSink 5000 0 [0xFF#8, 0xD8#8, 0xFF#8]))
      (fun t => firstBytes t.dst 3 == some [0xFF#8, 0xD8#8, 0xFF#8] && t.dstUsed == 3#32 && t.dstCap == 3#32 &&
        t.stgRemaining == 4096#13 && regValue .status t == 0x0008#32) = true := by decide
/-- V10, row 6. -/
theorem test_sinkFinal_oom : statusIs (exec .sinkFinal (openSink 4096 4096 [0#8])) 0x2254#32 = true := by decide

/-! ### Conversion vectors (V3, V4, V6, V7, V9) -/

theorem test_yuvFull :
    yuvFull 149#8 43#8 21#8 = ⟨0#8, 254#8, 0#8⟩ ∧ yuvFull 1#8 128#8 127#8 = ⟨0#8, 1#8, 1#8⟩ ∧
      yuvFull 16#8 128#8 127#8 = ⟨14#8, 16#8, 16#8⟩ ∧ yuvFull 200#8 50#8 200#8 = ⟨255#8, 175#8, 61#8⟩ := by decide
theorem test_yuvLimited :
    yuvLimited 17#8 127#8 128#8 = ⟨1#8, 2#8, 0#8⟩ ∧ yuvLimited 180#8 128#8 128#8 = ⟨191#8, 191#8, 191#8⟩ ∧
      yuvLimited 0#8 255#8 255#8 = ⟨184#8, 0#8, 237#8⟩ ∧ yuvLimited 235#8 90#8 240#8 = ⟨255#8, 179#8, 178#8⟩ := by
  decide
theorem test_rgb565 :
    rgb565Triplet 0#8 0xF8#8 = ⟨248#8, 0#8, 0#8⟩ ∧ rgb565Triplet 0xFF#8 0xFF#8 = ⟨248#8, 252#8, 248#8⟩ ∧
      rgb565Triplet 0x21#8 8#8 = ⟨8#8, 4#8, 8#8⟩ ∧ rgb565Triplet 0xCD#8 0xAB#8 = ⟨168#8, 120#8, 104#8⟩ := by decide
theorem test_bgr24_row :
    scanline .bgr24 (framed 5 2 2 2 [1#8, 2#8, 3#8, 4#8, 5#8, 6#8, 0xEE#8, 0xEE#8, 7#8, 8#8, 9#8, 10#8, 11#8, 12#8])
      1 = some [⟨9#8, 8#8, 7#8⟩, ⟨12#8, 11#8, 10#8⟩] := by decide
theorem test_chroma_addresses :
    chromaAddr .nv12 4 4 3 3 = 22 ∧ chromaAddr .nv16 4 4 3 1 = 22 ∧ chromaAddr .nv24 4 4 3 3 = 46 ∧
      srcExtent .nv12 4 4 9 = 24 ∧ srcExtent .nv16 4 4 9 = 32 ∧ srcExtent .nv24 4 4 9 = 48 := by decide
theorem test_nv16_frame :
    frameTriplets .nv16 (storeBytes [] 0 [0x51#8, 0x52#8, 0x29#8, 0x2A#8, 0x5A#8, 0xF0#8, 0xF0#8, 0x6E#8]) 2 2 =
      some [⟨255#8, 0#8, 0#8⟩, ⟨255#8, 1#8, 0#8⟩, ⟨0#8, 0#8, 255#8⟩, ⟨2#8, 1#8, 255#8⟩] := by decide
theorem test_nv24_frame :
    frameTriplets .nv24 (storeBytes [] 0 [0x51#8, 0x91#8, 0x5A#8, 0xF0#8, 0x36#8, 0x22#8]) 2 1 =
      some [⟨255#8, 0#8, 0#8⟩, ⟨0#8, 255#8, 1#8⟩] := by decide

/-! ### The ports and memories -/

theorem test_fetch : step (State.reset.withFetchWord 32 0x02060000) =
    .next { State.reset with responses := [0x00001000#32] } := by rfl
theorem test_host_write_mid_frame :
    hostWriteSrc 0 [1#8] (inFrame 4 1 2 0 0 []) = .refused .srcWriteMidFrame := by rfl
/-- R30, R247: also in mid-frame of a semi-planar format. -/
theorem test_host_write_mid_frame_nv24 :
    hostWriteSrc 0 [1#8] (inFrame 8 1 1 0 0 []) = .refused .srcWriteMidFrame := by rfl
/-- R243 item 3: DST is no result before SINK_FINAL. -/
theorem test_host_read_before_final :
    (match hostReadDst (openSink 5000 1 []) 0 with | .error .readOutsideWindow => true | _ => false) = true := by decide
/-- R247, R242: SINK_FINAL with no frame delivered completes no encode; with C_DONE it does. -/
theorem test_host_read_without_frame :
    (leaves (exec .sinkFinal (openSink 5000 0 [0xFF#8])) fun t =>
      t.dstUsed == 1#32 && match hostReadDst t 0 with | .error .readOutsideWindow => true | _ => false) = true := by
  decide
theorem test_host_read_completed :
    (leaves (exec .sinkFinal { openSink 5000 0 [0xFF#8] with cphase := .done }) fun t =>
      leavesByte (hostReadDst t 0) 0xFF#8) = true := by decide
theorem test_reset_memories_wf : ∀ sp, (spaceOf sp State.reset).wf := fun sp => by cases sp <;> exact .nil
theorem test_every_memory_write_keeps_wf (m : Memory) (h : m.wf) (a : Nat) (bs : List Byte) :
    Memory.wf (storeBytes m a bs) := storeBytes_wf h a bs

/-! ### States that meet the invariant -/

theorem heldBelow_zero (m : Memory) : HeldBelow m 0 := fun a ha => absurd ha (Nat.not_lt_zero a)

theorem withinSpace_nil (n : Nat) : WithinSpace [] n := fun _ hc => nomatch hc

/-- RGB24, 1 x 2, row 0 delivered: the frame is in progress and LINE holds its scanline. -/
def midRgb : State := { inFrame 4 1 2 0 1 [1#8, 2#8, 3#8, 4#8, 5#8, 6#8] with line := storeBytes [] 0 [1#8, 2#8, 3#8] }

/-- NV24, 1 x 1, converted into PLANE: R164's smallest frame. -/
def midNv24 : State := { inFrame 8 1 1 0 0 [0x51#8, 0x5A#8, 0xF0#8] with plane := storeBytes [] 0 [0xFF#8, 0#8, 0#8] }

/-- A completed encode of two bytes. -/
def encoded : State :=
  { framed 4 1 1 0 [1#8, 2#8, 3#8] with
    cphase := .done, sphase := .done, nextRow := 1#16, dstUsed := 2#32, dstCap := 2#32, resultReady := true
    dst := storeBytes [] 0 [0xFF#8, 0xD8#8] }

theorem inv_midRgb : BlockInv midRgb where
  wf := fun sp => by cases sp <;> first | exact .nil | exact storeBytes_wf .nil _ _
  srcSize := by unfold WithinSpace; decide
  planeSize := withinSpace_nil _
  lineSize := by unfold WithinSpace; decide
  stgSize := withinSpace_nil _
  dstSize := withinSpace_nil _
  levelLow := by decide
  levelHigh := by decide
  closedEmpty := fun _ => by decide
  usedCap := by decide
  capLimit := by decide
  readyClosed := fun h => nomatch h
  completedReady := fun h => nomatch h
  idleUnused := fun _ => by decide
  frame := fun _ => ⟨.rgb24, by decide, ⟨by decide, by decide, by decide, by decide⟩, by decide,
    (fun h => nomatch h), fun _ => by unfold HeldBelow; decide⟩
  staged := heldBelow_zero _
  written := heldBelow_zero _

theorem inv_midNv24 : BlockInv midNv24 where
  wf := fun sp => by cases sp <;> first | exact .nil | exact storeBytes_wf .nil _ _
  srcSize := by unfold WithinSpace; decide
  planeSize := by unfold WithinSpace; decide
  lineSize := withinSpace_nil _
  stgSize := withinSpace_nil _
  dstSize := withinSpace_nil _
  levelLow := by decide
  levelHigh := by decide
  closedEmpty := fun _ => by decide
  usedCap := by decide
  capLimit := by decide
  readyClosed := fun h => nomatch h
  completedReady := fun h => nomatch h
  idleUnused := fun _ => by decide
  frame := fun _ => ⟨.nv24, by decide, ⟨by decide, by decide, by decide, by decide⟩, by decide,
    fun _ => by unfold HeldBelow; decide, fun h => absurd (by decide) h⟩
  staged := heldBelow_zero _
  written := heldBelow_zero _

theorem inv_encoded : BlockInv encoded where
  wf := fun sp => by cases sp <;> first | exact .nil | exact storeBytes_wf .nil _ _
  srcSize := by unfold WithinSpace; decide
  planeSize := withinSpace_nil _
  lineSize := withinSpace_nil _
  stgSize := withinSpace_nil _
  dstSize := by unfold WithinSpace; decide
  levelLow := by decide
  levelHigh := by decide
  closedEmpty := fun _ => by decide
  usedCap := by decide
  capLimit := by decide
  readyClosed := fun _ => by decide
  completedReady := fun _ => by decide
  idleUnused := fun h => nomatch h
  frame := fun h => nomatch h
  staged := heldBelow_zero _
  written := by unfold HeldBelow; decide

/-- The invariant does not look at the moves still to come. -/
theorem inv_pending {s : State} (h : BlockInv s) (ms : List Move) : BlockInv { s with inbox := ms } where
  wf := fun sp => by
    have := h.wf sp
    cases sp <;> exact this
  srcSize := h.srcSize
  planeSize := h.planeSize
  lineSize := h.lineSize
  stgSize := h.stgSize
  dstSize := h.dstSize
  levelLow := h.levelLow
  levelHigh := h.levelHigh
  closedEmpty := h.closedEmpty
  usedCap := h.usedCap
  capLimit := h.capLimit
  readyClosed := h.readyClosed
  completedReady := h.completedReady
  idleUnused := h.idleUnused
  frame := fun hc => by
    obtain ⟨f, h1, h2, h3, h4, h5⟩ := h.frame hc
    exact ⟨f, h1, h2, h3, h4, h5⟩
  staged := h.staged
  written := h.written

/-! ### A witness for the hypotheses of each obligation, clause by clause -/

theorem witness_DecodeThenEncodeGivesTheWord : decode 0x0104FFFF#32 = .ok (.wrcfg 4#8 0xFFFF#16) := by decide

theorem witness_DecodeFollowsTheOpcodeMap :
    decode 0x210000D8#32 = .ok (.push 0xD8#8) ∧
      ∃ r ∈ opcodeMap, r.selects 0x210000D8#32 = true ∧ r.selects 0x210000FF#32 = true := by decide

theorem witness_IllegalWordsFaultOrAreIgnored :
    decode 0x12000000#32 = .error .undefinedOpcode ∧ decode 0x21800000#32 = .error .reservedBits ∧
      Live (block 12 5000#32) ∧ faultedBlock.faulted = true ∧ opField 0x01FF0000#32 = 0x01#8 := by decide

theorem witness_SetFrameWritesTheFourRegisters :
    (AsmLine.setFrame 65535 0 65535 0).wellFormed = true ∧ Live encoded ∧ encoded.cphase ≠ .active := by decide

/-- Two groupings of the same two bytes, with other commands between. -/
theorem witness_PushGroupingHasNoEffect :
    (openSink 5000 0 []).sphase = .opened ∧
      (∀ i ∈ [Instr.push 0xFF#8, .nop, .push 0xD8#8], i ≠ .sinkInit ∧ i ≠ .sinkFinal) ∧
      (∀ i ∈ [Instr.wrcfg 2#8 7#16, .push 0xFF#8, .push 0xD8#8], i ≠ .sinkInit ∧ i ≠ .sinkFinal) ∧
      pushedBytes [.push 0xFF#8, .nop, .push 0xD8#8] = pushedBytes [.wrcfg 2#8 7#16, .push 0xFF#8, .push 0xD8#8] ∧
      (∃ t, runCommands [.push 0xFF#8, .nop, .push 0xD8#8] (openSink 5000 0 []) = .next t ∧ Live t) ∧
      ∃ u, runCommands [.wrcfg 2#8 7#16, .push 0xFF#8, .push 0xD8#8] (openSink 5000 0 []) = .next u ∧ Live u :=
  ⟨by decide, by decide, by decide, by decide, ⟨_, by rfl, by decide⟩, _, by rfl, by decide⟩

theorem witness_StepRunsTheDecodedCommand :
    { block 12 5000#32 with inbox := [.command 0x10000000#32, .reset] }.inbox = .command 0x10000000#32 :: [.reset] ∧
      decode 0x10000000#32 = .ok .convStart := by decide

theorem witness_NothingPendingChangesNothing : (block 12 5000#32).inbox = [] := by decide

theorem witness_NopHasNoEffect : opField 0x00800000#32 = 0x00#8 ∧ (0x00800000#32).extractLsb' 0 24 ≠ 0#24 := by decide

theorem witness_RdregRespondsTheRegister :
    registerIndex .status = 0#8 ∧ registerIndex .dstHeight = 0x0B#8 ∧ 0x0C ≤ (0x0C#8).toNat ∧ 0x0C ≤ (0xFF#8).toNat := by
  decide

theorem witness_WrcfgWritesOneConfigurationRegister :
    faultedBlock.faulted = true ∧ Live (block 12 5000#32) ∧ ¬(1 ≤ (0#8).toNat ∧ (0#8).toNat ≤ 4) ∧
      ¬(1 ≤ (5#8).toNat ∧ (5#8).toNat ≤ 4) ∧ Live midRgb ∧ midRgb.cphase = .active ∧
      1 ≤ (1#8).toNat ∧ (4#8).toNat ≤ 4 ∧ (block 12 5000#32).cphase ≠ .active ∧ encoded.cphase ≠ .active := by decide

theorem witness_ResetGivesTheResetValues : { encoded with inbox := [.reset] }.inbox = .reset :: [] := by decide

theorem witness_ResetForgetsTheScratchMemories :
    (∃ t, step { midRgb with inbox := [.reset] } = .next t) ∧
      ∃ t, step { midRgb with inbox := [.resetDuring 0x11000000#32] } = .next t := ⟨⟨_, by rfl⟩, ⟨_, by rfl⟩⟩

theorem witness_ResetInACommandAbandonsIt :
    { encoded with inbox := [.resetDuring 0x11000000#32] }.inbox = .resetDuring 0x11000000#32 :: [] ∧
      opField 0x11000000#32 ≠ 0x21#8 ∧ opField 0x11000000#32 ≠ 0x22#8 ∧
      { encoded with inbox := [.resetDuring 0x22000000#32] }.inbox = .resetDuring 0x22000000#32 :: [] ∧
      decode 0x22000001#32 = .error .reservedBits ∧ decode 0x22000000#32 = .ok .sinkFinal ∧ Instr.sinkFinal.opByte = 0x22#8 ∧
      decode 0x21000001#32 = .ok (.push 1#8) ∧ (Instr.push 1#8).opByte = 0x21#8 := by decide

theorem witness_CommandsWriteOnlyWhatTheyOwn :
    (∃ t, exec .convLine midRgb = .next t) ∧ ∀ x, Instr.convLine ≠ .rdreg x :=
  ⟨⟨_, by rfl⟩, fun x => by simp⟩

theorem witness_ParametersAreFixedForLife : ∃ t, step { encoded with inbox := [.reset] } = .next t := ⟨_, by rfl⟩

theorem witness_DestinationCountersGrow :
    (∃ t, exec .sinkInit encoded = .next t) ∧ ∃ t, exec .sinkFinal (openSink 5000 4096 [7#8]) = .next t :=
  ⟨⟨_, by rfl⟩, ⟨_, by rfl⟩⟩

theorem witness_AppendWritesOnlyItsOwnRange :
    ∃ t, exec .sinkFinal (openSink 5000 0 [7#8]) = .next t ∧ peek t .dst 0 ≠ peek (openSink 5000 0 [7#8]) .dst 0 :=
  ⟨_, by rfl, by decide⟩

theorem witness_FaultEntryIsPrecise :
    Live encoded ∧ ∃ t, runWord 0x22000000#32 encoded = .next t ∧ t.faulted = true := ⟨by decide, _, by rfl, by decide⟩

theorem witness_FaultStateIgnoresOtherWords :
    faultedBlock.faulted = true ∧ decode 0x02FF0000#32 = .ok (.rdreg 0xFF#8) ∧
      ∀ x, decode 0x10000000#32 ≠ .ok (.rdreg x) :=
  ⟨by decide, by decide, fun x => by rw [show decode 0x10000000#32 = .ok .convStart by decide]; simp⟩

theorem witness_OnlyResetLeavesTheFaultState :
    faultedBlock.faulted = true ∧ (∃ t, step faultedBlock = .next t) ∧
      { faultedBlock with inbox := [.reset] }.faulted = true ∧
      ∃ t, step { faultedBlock with inbox := [.reset] } = .next t :=
  ⟨by decide, ⟨_, by rfl⟩, by decide, ⟨_, by rfl⟩⟩

theorem witness_FaultsAreExactlyTheListed :
    Live (block 12 5000#32) ∧ 1 ≤ (block 12 5000#32).stgRemaining.toNat ∧
      (block 12 5000#32).stgRemaining.toNat ≤ 4096 ∧ raisedWhen .convLine (block 12 5000#32) .contractViolation ∧
      Faults .convLine (block 12 5000#32) .contractViolation ∧ decode 0x30000000#32 = .error .undefinedOpcode :=
  ⟨by decide, by decide, by decide, by simp [raisedWhen, block, State.reset], by rfl, by decide⟩

theorem witness_StepKeepsTheInvariant :
    BlockInv { midRgb with inbox := [.command 0x11000000#32] } ∧
      ∃ t, step { midRgb with inbox := [.command 0x11000000#32] } = .next t :=
  ⟨inv_pending inv_midRgb _, _, by rfl⟩

/-- Each of the three ends of a step, from states that meet the invariant. -/
theorem witness_InvariantLeavesOnlyTheHostsStops :
    (BlockInv { midNv24 with inbox := [.command 0x11000000#32] } ∧
      ∃ t, step { midNv24 with inbox := [.command 0x11000000#32] } = .next t) ∧
    (BlockInv { encoded with inbox := [.hostWriteSrc 17179869184 [0#8]] } ∧
      step { encoded with inbox := [.hostWriteSrc 17179869184 [0#8]] } = .refused .srcAddressOutside) ∧
    (BlockInv { midRgb with inbox := [.hostWriteSrc 0 [0#8]] } ∧
      step { midRgb with inbox := [.hostWriteSrc 0 [0#8]] } = .refused .srcWriteMidFrame) :=
  ⟨⟨inv_pending inv_midNv24 _, _, by rfl⟩, ⟨inv_pending inv_encoded _, by rfl⟩, inv_pending inv_midRgb _, by rfl⟩

theorem witness_DoneMeansNextRowIsHeight :
    BlockInv { encoded with inbox := [.command 0x01030005#32] } ∧
      Live { encoded with inbox := [.command 0x01030005#32] } ∧ encoded.nextRow = encoded.srcHeight ∧
      ∃ t, step { encoded with inbox := [.command 0x01030005#32] } = .next t ∧ Live t ∧ t.cphase = .done :=
  ⟨inv_pending inv_encoded _, by decide, by decide, _, by rfl, by decide, by decide⟩

theorem witness_ConverterPhasesChangeAsListed :
    Live midRgb ∧ midRgb.cphase = .active ∧ Live encoded ∧ encoded.cphase ≠ .active ∧
      midRgb.nextRow.toNat < midRgb.srcHeight.toNat ∧ ∃ t, exec .convLine midRgb = .next t ∧ Live t :=
  ⟨by decide, by decide, by decide, by decide, by decide, _, by rfl, by decide⟩

/-- One state for each of the four tests, each at a boundary. -/
theorem witness_ConvStartFaultsInOrder :
    (Live midRgb ∧ midRgb.cphase = .active) ∧
    (Live (framed 9 0 0 0 []) ∧ (framed 9 0 0 0 []).cphase ≠ .active ∧ ¬(1 ≤ (9#16).toNat ∧ (9#16).toNat ≤ 8)) ∧
    (Live (framed 8 0 1 0 []) ∧ (framed 8 0 1 0 []).cphase ≠ .active ∧ (1 ≤ (8#16).toNat ∧ (8#16).toNat ≤ 8) ∧
      (framed 8 0 1 0 []).srcWidth.toNat = 0) ∧
    (Live (framed 6 2 3 0 []) ∧ (framed 6 2 3 0 []).srcHeight.toNat % 2 = 1 ∧ (framed 6 2 3 0 []).srcFormat.toNat = 6) ∧
    (Live (framed 8 5 1 0 []) ∧ (framed 8 5 1 0 []).cphase ≠ .active ∧ 6 ≤ (framed 8 5 1 0 []).srcFormat.toNat ∧
      (framed 8 5 1 0 []).cfg.planeCap < 3 * (framed 8 5 1 0 []).srcWidth.toNat * (framed 8 5 1 0 []).srcHeight.toNat) :=
  by decide

theorem witness_ZeroDimensionsFault :
    Live (framed 4 0 1 0 []) ∧ (framed 4 0 1 0 []).cphase ≠ .active ∧
      formatOfTag (framed 4 0 1 0 []).srcFormat = some .rgb24 ∧ (framed 4 0 1 0 []).srcWidth = 0#16 ∧
      Live (framed 4 1 0 0 []) ∧ (framed 4 1 0 0 []).srcHeight = 0#16 := by decide

/-- YUYV, 2 x 1, four bytes provided: R143's example. -/
theorem ready_packed : FrameReady .yuyv (framed 1 2 1 0 [0x4C#8, 0x54#8, 0x4C#8, 0xFF#8]) :=
  ⟨by decide, by decide, by decide, ⟨by decide, by decide, by decide, by decide⟩, by unfold HeldBelow; decide,
    fun h => nomatch h⟩

/-- NV12, 2 x 2, six bytes provided and PLANE_CAP = 12 exactly: P3. -/
theorem ready_semiPlanar : FrameReady .nv12 (framed 6 2 2 0 [0x51#8, 0x91#8, 0x29#8, 0xEB#8, 0x5A#8, 0xF0#8]) :=
  ⟨by decide, by decide, by decide, ⟨by decide, by decide, by decide, by decide⟩, by unfold HeldBelow; decide,
    fun _ => by decide⟩

theorem witness_ConvStartBeginsAPackedFrame :
    FrameReady .yuyv (framed 1 2 1 0 [0x4C#8, 0x54#8, 0x4C#8, 0xFF#8]) ∧ semiPlanar .yuyv = false :=
  ⟨ready_packed, rfl⟩

theorem witness_ConvStartConvertsASemiPlanarFrame :
    FrameReady .nv12 (framed 6 2 2 0 [0x51#8, 0x91#8, 0x29#8, 0xEB#8, 0x5A#8, 0xF0#8]) ∧ semiPlanar .nv12 = true :=
  ⟨ready_semiPlanar, rfl⟩

theorem witness_ConvLineDeliversTheNextRow :
    (BlockInv midRgb ∧ Live midRgb ∧ midRgb.cphase = .active ∧ formatOfTag midRgb.srcFormat = some .rgb24 ∧
      HeldBelow midRgb.src (srcExtent .rgb24 midRgb.srcWidth.toNat midRgb.srcHeight.toNat midRgb.srcPadding.toNat)) ∧
    (BlockInv midNv24 ∧ Live midNv24 ∧ midNv24.cphase = .active ∧ formatOfTag midNv24.srcFormat = some .nv24 ∧
      semiPlanar .nv24 = true) :=
  ⟨⟨inv_midRgb, by decide, by decide, by decide, by unfold HeldBelow; decide⟩,
    inv_midNv24, by decide, by decide, by decide, by decide⟩

theorem witness_NextRowCountsTheDeliveredRows :
    BlockInv midRgb ∧ Live midRgb ∧ ∃ t, exec .convLine midRgb = .next t ∧ Live t :=
  ⟨inv_midRgb, by decide, _, by rfl, by decide⟩

theorem witness_FrameDeliversItsRowsInOrder :
    FrameReady .yuyv (framed 1 2 1 0 [0x4C#8, 0x54#8, 0x4C#8, 0xFF#8]) ∧
      1 ≤ (framed 1 2 1 0 [0x4C#8, 0x54#8, 0x4C#8, 0xFF#8]).srcHeight.toNat ∧
      0 ≤ (framed 1 2 1 0 [0x4C#8, 0x54#8, 0x4C#8, 0xFF#8]).srcHeight.toNat :=
  ⟨ready_packed, by decide, by decide⟩

theorem witness_SemiPlanarColourFunction : (16#8 : Byte).toNat ≤ 16 ∧ 235 ≤ (235#8 : Byte).toNat := by decide

/-- YUYV and UYVY rows of two pixels, both pixels of the group. -/
theorem witness_PackedYuvRowsReadTheirGroups :
    (Live (inFrame 1 2 1 0 0 [1#8, 2#8, 3#8, 4#8]) ∧ (inFrame 1 2 1 0 0 [1#8, 2#8, 3#8, 4#8]).cphase = .active ∧
      (∃ t, exec .convLine (inFrame 1 2 1 0 0 [1#8, 2#8, 3#8, 4#8]) = .next t) ∧
      (inFrame 1 2 1 0 0 [1#8, 2#8, 3#8, 4#8]).srcFormat = 0x0001#16 ∧
      1 < (inFrame 1 2 1 0 0 [1#8, 2#8, 3#8, 4#8]).srcWidth.toNat) ∧
    ((∃ t, exec .convLine (inFrame 2 2 1 0 0 [1#8, 2#8, 3#8, 4#8]) = .next t) ∧
      (inFrame 2 2 1 0 0 [1#8, 2#8, 3#8, 4#8]).srcFormat = 0x0002#16) :=
  ⟨⟨by decide, by decide, ⟨_, by rfl⟩, by decide, by decide⟩, ⟨_, by rfl⟩, by decide⟩

theorem witness_RgbRowsReadTheirPixels :
    (∃ t, exec .convLine (inFrame 3 1 1 0 0 [1#8, 2#8]) = .next t) ∧
      (inFrame 3 1 1 0 0 [1#8, 2#8]).srcFormat = 0x0003#16 ∧
      (∃ t, exec .convLine (inFrame 4 1 1 0 0 [1#8, 2#8, 3#8]) = .next t) ∧
      (inFrame 4 1 1 0 0 [1#8, 2#8, 3#8]).srcFormat = 0x0004#16 ∧
      (∃ t, exec .convLine (inFrame 5 1 1 0 0 [1#8, 2#8, 3#8]) = .next t) ∧
      (inFrame 5 1 1 0 0 [1#8, 2#8, 3#8]).srcFormat = 0x0005#16 ∧
      Live (inFrame 5 1 1 0 0 [1#8, 2#8, 3#8]) ∧ (inFrame 5 1 1 0 0 [1#8, 2#8, 3#8]).cphase = .active :=
  ⟨⟨_, by rfl⟩, by decide, ⟨_, by rfl⟩, by decide, ⟨_, by rfl⟩, by decide, by decide, by decide⟩

theorem witness_SemiPlanarRowsCopyPlane :
    Live midNv24 ∧ midNv24.cphase = .active ∧ (∃ t, exec .convLine midNv24 = .next t) ∧
      6 ≤ midNv24.srcFormat.toNat ∧ midNv24.srcFormat.toNat ≤ 8 ∧ 2 < 3 * midNv24.srcWidth.toNat :=
  ⟨by decide, by decide, ⟨_, by rfl⟩, by decide, by decide, by decide⟩

/-- Two sources that part only above the extent. -/
theorem witness_ConversionReadsBelowTheExtent :
    DimensionsFit .rgb24 midRgb.srcWidth.toNat midRgb.srcHeight.toNat ∧ 0 < midRgb.srcWidth.toNat ∧
      1 < midRgb.srcHeight.toNat ∧
      (∀ a, a < srcExtent .rgb24 midRgb.srcWidth.toNat midRgb.srcHeight.toNat midRgb.srcPadding.toNat →
        readByte (storeBytes midRgb.src 6 [9#8]) a = readByte midRgb.src a) ∧
      readByte (storeBytes midRgb.src 6 [9#8]) 6 ≠ readByte midRgb.src 6 :=
  ⟨⟨by decide, by decide, by decide, by decide⟩, by decide, by decide, by decide, by decide⟩

/-- The same second row stored with padding 0 and with padding 2. -/
theorem witness_PaddingNeverLeaksIntoAScanline :
    let padded := inFrame 4 1 2 2 1 [1#8, 2#8, 3#8, 0xEE#8, 0xEE#8, 4#8, 5#8, 6#8, 0xEE#8, 0xEE#8]
    BlockInv midRgb ∧ Live padded ∧ padded.cphase = .active ∧ Live midRgb ∧ midRgb.cphase = .active ∧
      formatOfTag midRgb.srcFormat = some .rgb24 ∧ semiPlanar .rgb24 = false ∧ padded.srcFormat = midRgb.srcFormat ∧
      padded.srcWidth = midRgb.srcWidth ∧ padded.nextRow = midRgb.nextRow ∧
      (∀ k, k < midRgb.srcWidth.toNat * bytesPerPixel .rgb24 →
        readByte padded.src (rowBase .rgb24 midRgb.srcWidth.toNat padded.srcPadding.toNat midRgb.nextRow.toNat + k)
          = readByte midRgb.src (rowBase .rgb24 midRgb.srcWidth.toNat midRgb.srcPadding.toNat midRgb.nextRow.toNat + k)) ∧
      ∃ t, exec .convLine midRgb = .next t :=
  ⟨inv_midRgb, by decide, by decide, by decide, by decide, by decide, by decide, by decide, by decide, by decide,
    by decide, _, by rfl⟩

theorem witness_LateSourceWritesDoNotReachPlane :
    BlockInv midNv24 ∧ Live midNv24 ∧ midNv24.cphase = .active ∧ formatOfTag midNv24.srcFormat = some .nv24 ∧
      semiPlanar .nv24 = true := ⟨inv_midNv24, by decide, by decide, by decide, by decide⟩

theorem witness_SinkPhasesChangeAsListed :
    Live (openSink 5000 0 []) ∧ (openSink 5000 0 []).sphase = .opened ∧ Live encoded ∧ encoded.sphase ≠ .opened ∧
      (block 12 5000#32).sphase ≠ .opened ∧ ∃ t, exec .sinkFinal (openSink 5000 0 []) = .next t ∧ Live t :=
  ⟨by decide, by decide, by decide, by decide, by decide, _, by rfl, by decide⟩

theorem witness_SinkInitBindsAndEmpties :
    faultedBlock.faulted = true ∧ Live (openSink 5000 0 []) ∧ (openSink 5000 0 []).sphase = .opened ∧ Live encoded ∧
      encoded.sphase ≠ .opened := by decide

/-- Both ends of the range of STG_REMAINING. -/
theorem witness_PushStagesItsByte :
    Live (openSink 5000 0 []) ∧ (openSink 5000 0 []).sphase = .opened ∧
      (openSink 5000 0 []).stgRemaining.toNat = 4096 ∧
      2 ≤ { openSink 5000 0 [] with stgRemaining := 2#13 }.stgRemaining.toNat := by decide

/-- A sink with 4095 bytes staged. -/
def almostFull (dstLimit : BitVec 32) : State :=
  { openSink dstLimit 0 [] with stgRemaining := 1#13, stg := storeBytes [] 0 (List.replicate 4095 0#8) }

theorem witness_FillingPushDrainsTheBlock :
    Live (almostFull 4096) ∧ (almostFull 4096).sphase = .opened ∧ (almostFull 4096).stgRemaining.toNat = 1 ∧
      HeldBelow (almostFull 4096).stg 4095 ∧
      (almostFull 4096).dstUsed.toNat + 4096 ≤ (almostFull 4096).cfg.dstLimit.toNat :=
  ⟨rfl, rfl, rfl, by
    have h := heldBelow_extend (bs := List.replicate 4095 (0#8 : Byte)) (heldBelow_zero [])
    rwa [List.length_replicate, Nat.zero_add] at h, by decide⟩

theorem witness_PushIsTurnedAwayUnstaged :
    faultedBlock.faulted = true ∧ Live encoded ∧ encoded.sphase ≠ .opened ∧ Live (almostFull 4095) ∧
      (almostFull 4095).sphase = .opened ∧ (almostFull 4095).stgRemaining.toNat = 1 ∧
      (almostFull 4095).cfg.dstLimit.toNat < (almostFull 4095).dstUsed.toNat + 4096 :=
  ⟨by decide, by decide, by decide, rfl, rfl, rfl, by decide⟩

/-- Nothing staged, and one byte that just fits or is one too many. -/
theorem witness_SinkFinalFlushesAndCloses :
    faultedBlock.faulted = true ∧ faultedBlock.stgRemaining.toNat ≤ 4096 ∧ Live encoded ∧ encoded.sphase ≠ .opened ∧
      (Live (openSink 4096 4096 [0#8]) ∧ (openSink 4096 4096 [0#8]).sphase = .opened ∧
        (openSink 4096 4096 [0#8]).stgRemaining.toNat = 4095 ∧ (4096#32 : BitVec 32).toNat < 4096 + 1) ∧
      (Live (openSink 4097 4096 [0#8]) ∧ (openSink 4097 4096 [0#8]).stgRemaining.toNat = 4095 ∧
        HeldBelow (openSink 4097 4096 [0#8]).stg 1) ∧
      (Live (openSink 0 0 []) ∧ (openSink 0 0 []).stgRemaining.toNat = 4096 ∧ HeldBelow (openSink 0 0 []).stg 0) :=
  ⟨by decide, by decide, by decide, by decide, by decide,
    ⟨by decide, by decide, by unfold HeldBelow; decide⟩, by decide, by decide, heldBelow_zero _⟩

theorem witness_FaultFreeEncodeLeavesThePushedBytes :
    (∀ i ∈ [Instr.push 0xFF#8, .nop, .push 0xD8#8], i ≠ .sinkInit ∧ i ≠ .sinkFinal) ∧
      ∃ m t, runCommands [.sinkInit, .push 0xFF#8, .nop, .push 0xD8#8] (block 12 5000#32) = .next m ∧
        exec .sinkFinal m = .next t ∧ Live t :=
  ⟨by decide, _, _, by rfl, by rfl, by decide⟩

theorem witness_EncodeWithinTheLimitCompletes :
    Live (block 12 2#32) ∧ (block 12 2#32).sphase ≠ .opened ∧
      [0xFF#8, 0xD8#8].length ≤ (block 12 2#32).cfg.dstLimit.toNat := by decide

/-- A completed encode, and the command that completes one. -/
theorem witness_HostReadsTheResultWhenComplete :
    BlockInv encoded ∧ encoded.faulted = false ∧ encoded.resultReady = true ∧ encodeCompleted encoded = true ∧
      1 < encoded.dstUsed.toNat ∧ leavesByte (hostReadDst encoded 1) 0xD8#8 = true ∧
      BlockInv midRgb ∧ ∃ t, exec .convLine midRgb = .next t ∧ Live t :=
  ⟨inv_encoded, by decide, by decide, by decide, by decide, by decide, inv_midRgb, _, by rfl, by decide⟩

/-- The last row of a frame, and a WRCFG, a CONV_START and a fault after it. -/
theorem witness_EngineReadsTheDeliveredScanline :
    ∃ t u, exec .convLine midRgb = .next t ∧ Live t ∧ t.cphase = .done ∧ 2 < 3 * midRgb.srcWidth.toNat ∧
      (∀ i ∈ [Instr.wrcfg 2#8 0#16, .convStart, .rdreg 0#8], i ≠ .convLine) ∧
      runCommands [.wrcfg 2#8 0#16, .convStart, .rdreg 0#8] t = .next u ∧
      leavesByte (engineReadLine u 2) 6#8 = true :=
  ⟨_, _, by rfl, by decide, by decide, by decide, by decide, by rfl, by decide⟩

theorem witness_HostWritesSourceBetweenFrames :
    encoded.cphase ≠ .active ∧ 17179869183 + [0#8].length ≤ 2 ^ 34 := by decide

end Sys2Proof.Tests
end

section
/-! PROOFS. What each update of the state leaves unchanged, and the frame of every command
(spec/10_state.md R23, R30). -/

namespace Sys2Proof.Machine

variable {s t u : State} {i : Instr} {rs rs' : List RegName} {sps sps' : List Space}

/-! ### `Untouched` -/

theorem untouched_refl (s : State) : Untouched rs sps s s where
  regs _ _ := rfl
  bytes _ _ _ := rfl
  cfg := rfl
  inbox := rfl
  responses := rfl

theorem untouched_trans (h : Untouched rs sps s u) (h' : Untouched rs sps u t) : Untouched rs sps s t where
  regs r hr := (h'.regs r hr).trans (h.regs r hr)
  bytes sp hsp a := (h'.bytes sp hsp a).trans (h.bytes sp hsp a)
  cfg := h'.cfg.trans h.cfg
  inbox := h'.inbox.trans h.inbox
  responses := h'.responses.trans h.responses

/-- A longer list of what may be written is a weaker claim. -/
theorem untouched_mono (h : Untouched rs sps s t) (hr : rs ⊆ rs') (hsp : sps ⊆ sps') : Untouched rs' sps' s t :=
  { h with
    regs := fun r hn => h.regs r fun hm => hn (hr hm)
    bytes := fun sp hn => h.bytes sp fun hm => hn (hsp hm) }

/-! ### One lemma per update -/

theorem untouched_latch (s : State) (l : Option FaultRecord) : Untouched [.status] [] s { s with latch := l } where
  regs r hr := by cases r <;> simp_all [regValue]
  bytes sp _ _ := by cases sp <;> rfl
  cfg := rfl
  inbox := rfl
  responses := rfl

theorem untouched_writeConfig (r : RegName) (val : Half) (s : State) : Untouched [r] [] s (writeConfig r val s) where
  regs r' hr := by
    cases r with
    | srcFormat | srcWidth | srcHeight | srcPadding => cases r' <;> simp_all [writeConfig, regValue, statusWord]
    | status | nextRow | stgRemaining | dstUsed | dstCap | dstFormat | dstWidth | dstHeight => rfl
  bytes sp _ _ := by cases sp <;> simp [peek, spaceOf]
  cfg := by simp
  inbox := by simp
  responses := by simp

theorem untouched_storeSrc (s : State) (a : Nat) (bs : List Byte) :
    Untouched [] [.src] s { s with src := storeBytes s.src a bs } where
  regs r _ := by cases r <;> rfl
  bytes sp hsp _ := by cases sp <;> simp_all [peek, spaceOf]
  cfg := rfl
  inbox := rfl
  responses := rfl

theorem untouched_storePlane (s : State) (a : Nat) (bs : List Byte) :
    Untouched [] [.plane] s { s with plane := storeBytes s.plane a bs } where
  regs r _ := by cases r <;> rfl
  bytes sp hsp _ := by cases sp <;> simp_all [peek, spaceOf]
  cfg := rfl
  inbox := rfl
  responses := rfl

theorem untouched_beginFrame (s : State) : Untouched [.status, .nextRow] [] s (beginFrame s) where
  regs r hr := by cases r <;> simp_all [regValue]
  bytes sp _ _ := by cases sp <;> rfl
  cfg := rfl
  inbox := rfl
  responses := rfl

theorem untouched_deliverRow (ts : List Triplet) (s : State) :
    Untouched [.status, .nextRow] [.line] s (deliverRow ts s) where
  regs r hr := by cases r <;> simp_all [regValue]
  bytes sp hsp _ := by cases sp <;> simp_all [peek, spaceOf]
  cfg := rfl
  inbox := rfl
  responses := rfl

theorem untouched_stageByte (byte : Byte) (s : State) : Untouched [.stgRemaining] [.stg] s (stageByte byte s) where
  regs r hr := by cases r <;> simp_all [regValue, statusWord]
  bytes sp hsp _ := by cases sp <;> simp_all [peek, spaceOf]
  cfg := rfl
  inbox := rfl
  responses := rfl

theorem untouched_emptyStaging (s : State) : Untouched [.stgRemaining] [] s (emptyStaging s) where
  regs r hr := by cases r <;> simp_all [regValue, statusWord]
  bytes sp _ _ := by cases sp <;> rfl
  cfg := rfl
  inbox := rfl
  responses := rfl

theorem untouched_appendBytes (bs : List Byte) (s : State) :
    Untouched [.dstUsed, .dstCap] [.dst] s (appendBytes bs s) where
  regs r hr := by cases r <;> simp_all [regValue, statusWord]
  bytes sp hsp _ := by cases sp <;> simp_all [peek, spaceOf]
  cfg := rfl
  inbox := rfl
  responses := rfl

theorem untouched_closeSink (s : State) : Untouched [.status, .stgRemaining] [] s (closeSink s) where
  regs r hr := by cases r <;> simp_all [regValue]
  bytes sp _ _ := by cases sp <;> rfl
  cfg := rfl
  inbox := rfl
  responses := rfl

/-! ### The commands -/

theorem untouched_effect_sinkInit (he : Effect .sinkInit s t) : Untouched (regsWritten .sinkInit) [] s t := by
  obtain ⟨-, rfl⟩ := he
  exact {
    regs := fun r hr => by cases r <;> simp_all [regValue, regsWritten]
    bytes := fun sp _ _ => by cases sp <;> rfl
    cfg := rfl
    inbox := rfl
    responses := rfl }

/-- The register a completed WRCFG writes is one of the four the host may write (R23, R112). -/
theorem hostMayWrite_mem {r : RegName} (h : hostMayWrite r = true) (reg : Byte) (val : Half) :
    r ∈ regsWritten (.wrcfg reg val) := by
  cases r <;> simp_all [hostMayWrite, regsWritten]

/-- A command that has its effect writes only the registers and spaces its rule lists. -/
theorem untouched_effect (he : Effect i s t) (hi : ∀ x, i ≠ .rdreg x) :
    Untouched (regsWritten i) (spacesWritten i) s t := by
  cases i with
  | nop =>
    obtain rfl : t = s := he
    exact untouched_refl t
  | rdreg reg => exact absurd rfl (hi reg)
  | wrcfg reg val =>
    obtain ⟨r, -, hw, -, rfl⟩ := he
    exact untouched_mono (untouched_writeConfig r val s) (by simpa using hostMayWrite_mem hw reg val) (by simp)
  | convStart =>
    obtain ⟨-, f, -, -, ⟨-, rfl⟩ | ⟨-, ts, -, rfl⟩⟩ := he
    · exact untouched_mono (untouched_beginFrame s) (by simp [regsWritten]) (by simp)
    · exact untouched_trans (untouched_mono (untouched_storePlane s 0 (rowBytes ts)) (by simp) (by simp [spacesWritten]))
        (untouched_mono (untouched_beginFrame _) (by simp [regsWritten]) (by simp))
  | convLine =>
    obtain ⟨-, f, ts, -, -, rfl⟩ := he
    exact untouched_deliverRow ts s
  | sinkInit => exact untouched_effect_sinkInit he
  | push byte =>
    have hstage : Untouched (regsWritten (.push byte)) (spacesWritten (.push byte)) s (stageByte byte s) :=
      untouched_mono (untouched_stageByte byte s) (by simp [regsWritten]) (by simp [spacesWritten])
    obtain ⟨-, -, -, ⟨-, rfl⟩ | ⟨-, -, bs, -, rfl⟩⟩ := he
    · exact hstage
    · exact untouched_trans (untouched_trans hstage
        (untouched_mono (untouched_appendBytes bs _) (by simp [regsWritten]) (by simp [spacesWritten])))
        (untouched_mono (untouched_emptyStaging _) (by simp [regsWritten]) (by simp))
  | sinkFinal =>
    obtain ⟨-, -, -, bs, -, rfl⟩ := he
    exact untouched_trans
      (untouched_mono (untouched_appendBytes bs s) (by simp [regsWritten]) (by simp [spacesWritten]))
      (untouched_mono (untouched_closeSink _) (by simp [regsWritten]) (by simp))

/-- STATUS is in the list of every command that can fault. -/
theorem status_mem_regsWritten (hn : i ≠ .nop) (hr : ∀ x, i ≠ .rdreg x) : RegName.status ∈ regsWritten i := by
  cases i <;> simp_all [regsWritten]

/-- Settles O18: a command that completes did nothing, recorded a fault in STATUS, or had its effect. -/
theorem commandsWriteOnlyWhatTheyOwn : Obligations.CommandsWriteOnlyWhatTheyOwn := by
  intro i s t h hi
  rcases exec_cases h with ⟨-, rfl, -⟩ | ⟨-, ⟨hn, hr⟩, c, rfl⟩ | ⟨-, he⟩
  · exact untouched_refl t
  · exact untouched_mono (untouched_latch s _) (by simpa using status_mem_regsWritten hn hr) (by simp)
  · exact untouched_effect he hi

/-! ### What follows from the frame -/

/-- No command, RDREG included, changes a register outside its list. -/
theorem exec_keeps_register (h : exec i s = .next t) {r : RegName} (hr : r ∉ regsWritten i) :
    regValue r t = regValue r s := by
  by_cases hi : ∃ x, i = .rdreg x
  · obtain ⟨x, rfl⟩ := hi
    obtain rfl := Host.Outcome.next.inj h
    cases r <;> rfl
  · exact (commandsWriteOnlyWhatTheyOwn i s t h fun x hx => hi ⟨x, hx⟩).regs r hr

theorem exec_cfg (h : exec i s = .next t) : t.cfg = s.cfg := by
  by_cases hi : ∃ x, i = .rdreg x
  · obtain ⟨x, rfl⟩ := hi
    obtain rfl := Host.Outcome.next.inj h
    rfl
  · exact (commandsWriteOnlyWhatTheyOwn i s t h fun x hx => hi ⟨x, hx⟩).cfg

theorem runWord_cfg {w : Word} (h : runWord w s = .next t) : t.cfg = s.cfg := by
  rcases runWord_cases h with ⟨i, -, hexec⟩ | ⟨-, rfl⟩ | ⟨-, rfl⟩
  · exact exec_cfg hexec
  · rfl
  · rfl

/-- Settles O19: each kind of move carries the parameters along. -/
theorem parametersAreFixedForLife : Obligations.ParametersAreFixedForLife := by
  intro s t h
  rcases step_cases h with ⟨-, rfl⟩ | ⟨rest, ⟨w, -, hw⟩ | ⟨a, bs, -, hw⟩ | ⟨-, rfl⟩ | ⟨w, -, rfl⟩⟩
  · rfl
  · exact (runWord_cfg hw).trans rfl
  · obtain ⟨-, -, rfl⟩ := hostWriteSrc_eq_next hw
    rfl
  · rfl
  · rcases resetAbandoning_cases w { s with inbox := rest } with he | he <;> rw [he] <;> rfl

/-- An append that fits lowers neither counter of the destination (R29, R184). -/
theorem appendBytes_counters {bs : List Byte} (hfit : s.dstUsed.toNat + bs.length ≤ s.cfg.dstLimit.toNat) :
    s.dstCap.toNat ≤ (appendBytes bs s).dstCap.toNat ∧ s.dstUsed.toNat ≤ (appendBytes bs s).dstUsed.toNat := by
  rw [appendBytes_used hfit, appendBytes_cap hfit]
  exact ⟨le_max_left _ _, Nat.le_add_right _ _⟩

/-- An effective PUSH lowers neither counter of the destination (R29, R184). -/
theorem effect_push_counters {byte : Byte} (he : Effect (.push byte) s t) :
    s.dstCap.toNat ≤ t.dstCap.toNat ∧ s.dstUsed.toNat ≤ t.dstUsed.toNat := by
  obtain ⟨-, -, -, ⟨-, rfl⟩ | ⟨-, hfit, bs, hbs, rfl⟩⟩ := he
  · exact ⟨le_rfl, le_rfl⟩
  · have hfit' : (stageByte byte s).dstUsed.toNat + bs.length ≤ (stageByte byte s).cfg.dstLimit.toNat := by
      rwa [loadBytes_length hbs]
    exact appendBytes_counters hfit'

/-- An effective SINK_FINAL lowers neither counter of the destination (R29, R185). -/
theorem effect_sinkFinal_counters (he : Effect .sinkFinal s t) :
    s.dstCap.toNat ≤ t.dstCap.toNat ∧ s.dstUsed.toNat ≤ t.dstUsed.toNat := by
  obtain ⟨-, -, hfit, bs, hbs, rfl⟩ := he
  exact appendBytes_counters (by rwa [loadBytes_length hbs])

/-- A command whose list has neither counter of the destination leaves both. -/
theorem exec_keeps_counters (h : exec i s = .next t) (hc : .dstCap ∉ regsWritten i) (hu : .dstUsed ∉ regsWritten i) :
    t.dstCap = s.dstCap ∧ t.dstUsed = s.dstUsed :=
  ⟨exec_keeps_register h hc, exec_keeps_register h hu⟩

/-- What an effective command does to the counters of the destination (R29). -/
theorem effect_counters (h : exec i s = .next t) (he : Effect i s t) :
    s.dstCap.toNat ≤ t.dstCap.toNat ∧ (s.dstUsed.toNat ≤ t.dstUsed.toNat ∨ (i = .sinkInit ∧ t.dstUsed = 0#32)) := by
  cases i with
  | push byte => exact (effect_push_counters he).imp id .inl
  | sinkFinal => exact (effect_sinkFinal_counters he).imp id .inl
  | sinkInit =>
    obtain ⟨-, rfl⟩ := he
    exact ⟨le_rfl, .inr ⟨rfl, rfl⟩⟩
  | nop | wrcfg | rdreg | convStart | convLine =>
    obtain ⟨hc, hu⟩ := exec_keeps_counters h (by simp [regsWritten]) (by simp [regsWritten])
    rw [hc, hu]
    exact ⟨le_rfl, .inl le_rfl⟩

/-- Settles O20: of the commands that have an effect only PUSH, SINK_FINAL and SINK_INIT write a counter, and the first
two append. -/
theorem destinationCountersGrow : Obligations.DestinationCountersGrow := by
  intro i s t h
  rcases exec_cases h with ⟨-, rfl, -⟩ | ⟨-, -, c, rfl⟩ | ⟨-, he⟩
  · exact ⟨le_rfl, .inl le_rfl⟩
  · exact ⟨le_rfl, .inl le_rfl⟩
  · exact effect_counters h he

/-- A command that does not list NEXT_ROW leaves it (R22). -/
theorem exec_keeps_nextRow (h : exec i s = .next t) (hn : .nextRow ∉ regsWritten i) : t.nextRow = s.nextRow := by
  have hshown := exec_keeps_register h hn
  simpa [regValue, BitVec.setWidth_eq] using congrArg (BitVec.setWidth 16) hshown

/-- Settles O37: CONV_START sets NEXT_ROW, CONV_LINE counts it up below the height, so it does not wrap, and it is in no
other command's list. -/
theorem nextRowCountsTheDeliveredRows : Obligations.NextRowCountsTheDeliveredRows := by
  intro i s t hinv _ h hlive
  cases i with
  | convStart =>
    obtain ⟨-, f, -, -, ⟨-, rfl⟩ | ⟨-, ts, -, rfl⟩⟩ := exec_effect h hlive <;> rfl
  | convLine =>
    obtain ⟨hc, f, ts, -, -, rfl⟩ := exec_effect h hlive
    obtain ⟨g, hframe⟩ := hinv.frame hc
    exact nextRow_succ hframe.row
  | nop | wrcfg | rdreg | sinkInit | push | sinkFinal => exact exec_keeps_nextRow h (by simp [regsWritten])

end Sys2Proof.Machine
end

section
/-! PROOFS. The invariant: the reset state meets it and every step keeps it (spec/10_state.md R32, R33). -/

namespace Sys2Proof.Machine

variable {s t : State} {i : Instr}

/-! ### Small facts the updates need -/

theorem heldBelow_of_eq_zero {m : Memory} {n : Nat} (h : n = 0) : HeldBelow m n := by
  subst h
  exact fun a ha => absurd ha (Nat.not_lt_zero a)

theorem withinSpace_empty (n : Nat) : WithinSpace [] n := fun _ hc => nomatch hc

theorem wf_of_spaces (hsrc : s.src.wf) (hplane : s.plane.wf) (hline : s.line.wf) (hstg : s.stg.wf) (hdst : s.dst.wf) :
    ∀ sp, (spaceOf sp s).wf
  | .src => hsrc
  | .plane => hplane
  | .line => hline
  | .stg => hstg
  | .dst => hdst

/-- The frame in progress stays one while the converter's registers, PLANE and LINE stay (R23, R30). -/
theorem frame_congr (h : s.cphase = .active → ∃ f, FrameInProgress f s) (hc : t.cphase = s.cphase)
    (hf : t.srcFormat = s.srcFormat) (hw : t.srcWidth = s.srcWidth) (hh : t.srcHeight = s.srcHeight)
    (hn : t.nextRow = s.nextRow) (hp : t.plane = s.plane) (hl : t.line = s.line) :
    t.cphase = .active → ∃ f, FrameInProgress f t := by
  intro ha
  obtain ⟨f, h1, h2, h3, h4, h5⟩ := h (hc ▸ ha)
  exact ⟨f, by rwa [hf], by rwa [hw, hh], by rwa [hn, hh], by rwa [hp, hw, hh], by rwa [hn, hl, hw]⟩

/-! ### One lemma per update -/

/-- The invariant does not look at the two ports. -/
theorem blockInv_ports (h : BlockInv s) (ms : List Move) (ws : List Word) :
    BlockInv { s with inbox := ms, responses := ws } :=
  { h with frame := frame_congr h.frame rfl rfl rfl rfl rfl rfl rfl }

/-- Recording a fault keeps the invariant (R204). -/
theorem blockInv_latch (h : BlockInv s) (r : FaultRecord) : BlockInv { s with latch := some r } :=
  { h with
    completedReady := fun hc => by simp [encodeCompleted_iff] at hc
    frame := frame_congr h.frame rfl rfl rfl rfl rfl rfl rfl }

/-- A write of a configuration register outside C_ACTIVE keeps the invariant (R112). -/
theorem blockInv_writeConfig (h : BlockInv s) (hc : s.cphase ≠ .active) (r : RegName) (val : Half) :
    BlockInv (writeConfig r val s) := by
  cases r <;> exact { h with frame := fun ha => absurd ha hc }

/-- A write of SRC inside its space and outside C_ACTIVE keeps the invariant (R30). -/
theorem blockInv_storeSrc (h : BlockInv s) (hc : s.cphase ≠ .active) {a : Nat} {bs : List Byte}
    (hb : a + bs.length ≤ Config.srcSpace) : BlockInv { s with src := storeBytes s.src a bs } :=
  { h with
    wf := wf_of_spaces (storeBytes_wf (h.wf .src) _ _) (h.wf .plane) (h.wf .line) (h.wf .stg) (h.wf .dst)
    srcSize := withinSpace_storeBytes h.srcSize hb
    frame := fun ha => absurd ha hc }

/-- A write of PLANE inside it keeps the invariant: it takes no value away (R69). -/
theorem blockInv_storePlane (h : BlockInv s) {a : Nat} {bs : List Byte} (hb : a + bs.length ≤ s.cfg.planeCap) :
    BlockInv { s with plane := storeBytes s.plane a bs } :=
  { h with
    wf := wf_of_spaces (h.wf .src) (storeBytes_wf (h.wf .plane) _ _) (h.wf .line) (h.wf .stg) (h.wf .dst)
    planeSize := withinSpace_storeBytes h.planeSize hb
    frame := fun ha => (h.frame ha).imp fun _ hf => { hf with plane := fun hs => heldBelow_storeBytes (hf.plane hs) } }

/-- Beginning a frame CONV_START accepts keeps the invariant, if PLANE is filled for the formats that need it (R121). -/
theorem blockInv_beginFrame (h : BlockInv s) {f : Format} (hf : formatOfTag s.srcFormat = some f)
    (hd : DimensionsFit f s.srcWidth.toNat s.srcHeight.toNat)
    (hp : semiPlanar f → HeldBelow s.plane (3 * s.srcWidth.toNat * s.srcHeight.toNat)) : BlockInv (beginFrame s) :=
  { h with
    completedReady := fun hc => by simp [encodeCompleted_iff] at hc
    frame := fun _ => ⟨f, hf, hd, hd.height, hp, fun hn => absurd rfl hn⟩ }

/-- After a delivered scanline a frame still in progress has a row to come and its last scanline in LINE (R124, R126). -/
theorem frameInProgress_deliverRow {f : Format} {ts : List Triplet} (hf : FrameInProgress f s)
    (hl : ts.length = s.srcWidth.toNat) (ha : (deliverRow ts s).cphase = .active) :
    FrameInProgress f (deliverRow ts s) where
  tag := hf.tag
  dims := hf.dims
  row := by
    have hrow := hf.row
    have hne : s.nextRow.toNat + 1 ≠ s.srcHeight.toNat := fun he => by simp [phaseAfterRow, he] at ha
    simp only [deliverRow_nextRow, deliverRow_srcHeight, nextRow_succ hrow]
    omega
  plane := hf.plane
  line := fun _ => hl ▸ heldBelow_storeRow s.line ts

/-- Delivering a scanline keeps the invariant (R124). -/
theorem blockInv_deliverRow (h : BlockInv s) (hc : s.cphase = .active) {ts : List Triplet}
    (hl : ts.length = s.srcWidth.toNat) : BlockInv (deliverRow ts s) :=
  { h with
    wf := wf_of_spaces (h.wf .src) (h.wf .plane) (storeBytes_wf (h.wf .line) _ _) (h.wf .stg) (h.wf .dst)
    lineSize := withinSpace_storeBytes h.lineSize (by
      have := s.srcWidth.isLt
      simp [hl]
      omega)
    readyClosed := fun hr => by
      rw [deliverRow_resultReady, Bool.or_eq_true, encodeCompleted_iff] at hr
      exact hr.elim h.readyClosed fun hcomp => hcomp.2.2
    completedReady := fun hcomp => Bool.or_eq_true_iff.2 (.inr hcomp)
    frame := fun ha => (h.frame hc).imp fun _ hf => frameInProgress_deliverRow hf hl ha }

/-- A write of STG inside it keeps the invariant. -/
theorem blockInv_storeStg (h : BlockInv s) {a : Nat} {bs : List Byte} (hb : a + bs.length ≤ Config.stgCapacity) :
    BlockInv { s with stg := storeBytes s.stg a bs } :=
  { h with
    wf := wf_of_spaces (h.wf .src) (h.wf .plane) (h.wf .line) (storeBytes_wf (h.wf .stg) _ _) (h.wf .dst)
    stgSize := withinSpace_storeBytes h.stgSize hb
    frame := frame_congr h.frame rfl rfl rfl rfl rfl rfl rfl
    staged := heldBelow_storeBytes h.staged }

/-- Emptying the staging block keeps the invariant (R186). -/
theorem blockInv_emptyStaging (h : BlockInv s) : BlockInv (emptyStaging s) :=
  { h with
    levelLow := by simp
    levelHigh := by simp
    closedEmpty := fun _ => by simp
    frame := frame_congr h.frame rfl rfl rfl rfl rfl rfl rfl
    staged := heldBelow_of_eq_zero (by simp) }

/-- The byte's place in STG is inside it (R182). -/
theorem stage_address_lt (h : BlockInv s) : Config.stgCapacity - s.stgRemaining.toNat + 1 ≤ Config.stgCapacity := by
  have := h.levelLow
  have := h.levelHigh
  simp only [Config.stgCapacity] at *
  omega

/-- Staging a byte that does not fill the block keeps the invariant (R182). -/
theorem blockInv_stageByte (h : BlockInv s) (ho : s.sphase = .opened) (hr : s.stgRemaining.toNat ≠ 1) (byte : Byte) :
    BlockInv (stageByte byte s) := by
  have hlow := h.levelLow
  have hhigh := h.levelHigh
  have hrem := remaining_pred hlow
  exact { blockInv_storeStg h (bs := [byte]) (stage_address_lt h) with
    levelLow := by
      rw [stageByte_stgRemaining, hrem]
      omega
    levelHigh := by
      rw [stageByte_stgRemaining, hrem]
      omega
    closedEmpty := fun hn => absurd ho hn
    frame := frame_congr h.frame rfl rfl rfl rfl rfl rfl rfl
    staged := by
      have hlevel : Config.stgCapacity - (s.stgRemaining - 1#13).toNat
          = Config.stgCapacity - s.stgRemaining.toNat + [byte].length := by
        rw [hrem, List.length_singleton]
        omega
      rw [stageByte_stgRemaining, stageByte_stg, hlevel]
      exact heldBelow_extend h.staged }

/-- An append that fits, into an open sink, keeps the invariant (R184). -/
theorem blockInv_appendBytes (h : BlockInv s) (ho : s.sphase = .opened) {bs : List Byte}
    (hfit : s.dstUsed.toNat + bs.length ≤ s.cfg.dstLimit.toNat) : BlockInv (appendBytes bs s) := by
  have hused := appendBytes_used hfit
  have hcap := appendBytes_cap hfit
  exact { h with
    wf := wf_of_spaces (h.wf .src) (h.wf .plane) (h.wf .line) (h.wf .stg) (storeBytes_wf (h.wf .dst) _ _)
    dstSize := withinSpace_storeBytes h.dstSize hfit
    usedCap := by
      rw [hused, hcap]
      exact le_max_right _ _
    capLimit := by
      rw [hcap]
      exact max_le h.capLimit hfit
    idleUnused := fun hi => by simp [ho] at hi
    frame := frame_congr h.frame rfl rfl rfl rfl rfl rfl rfl
    written := by
      rw [hused]
      exact heldBelow_extend h.written }

/-- Closing the sink keeps the invariant and notes a completed encode (R185, R242). -/
theorem blockInv_closeSink (h : BlockInv s) : BlockInv (closeSink s) :=
  { blockInv_emptyStaging h with
    closedEmpty := fun _ => by simp
    readyClosed := fun _ => rfl
    completedReady := fun hcomp => Bool.or_eq_true_iff.2 (.inr hcomp)
    idleUnused := fun hi => by simp at hi
    frame := frame_congr h.frame rfl rfl rfl rfl rfl rfl rfl }

/-- A reset establishes the invariant, whatever the registers held; SRC and DST are the host's and stay (R33, R230). -/
theorem blockInv_resetBlock (hsrc : s.src.wf) (hdst : s.dst.wf) (hsrcSize : WithinSpace s.src Config.srcSpace)
    (hdstSize : WithinSpace s.dst s.cfg.dstLimit.toNat) : BlockInv (resetBlock s) where
  wf := wf_of_spaces hsrc .nil .nil .nil hdst
  srcSize := hsrcSize
  planeSize := withinSpace_empty _
  lineSize := withinSpace_empty _
  stgSize := withinSpace_empty _
  dstSize := hdstSize
  levelLow := by simp
  levelHigh := by simp
  closedEmpty := fun _ => by simp
  usedCap := by simp
  capLimit := by simp
  readyClosed := fun hr => nomatch hr
  completedReady := fun hc => by simp [encodeCompleted_iff] at hc
  idleUnused := fun _ => rfl
  frame := fun ha => nomatch ha
  staged := heldBelow_of_eq_zero (by simp)
  written := heldBelow_of_eq_zero (by simp)

/-- DST may be forgotten while nothing of it is used (R230). -/
theorem blockInv_forgetDst (h : BlockInv s) (hu : s.dstUsed.toNat = 0) : BlockInv { s with dst := [] } :=
  { h with
    wf := wf_of_spaces (h.wf .src) (h.wf .plane) (h.wf .line) (h.wf .stg) .nil
    dstSize := withinSpace_empty _
    frame := frame_congr h.frame rfl rfl rfl rfl rfl rfl rfl
    written := heldBelow_of_eq_zero hu }

/-! ### Commands, words and steps -/

/-- SINK_INIT keeps the invariant: an open, empty sink of which nothing is used (R181). -/
theorem effect_sinkInit_blockInv (h : BlockInv s) (he : Effect .sinkInit s t) : BlockInv t := by
  obtain ⟨-, rfl⟩ := he
  exact { h with
    levelLow := by simp
    levelHigh := by simp
    closedEmpty := fun hn => absurd rfl hn
    usedCap := by simp
    readyClosed := fun hr => nomatch hr
    completedReady := fun hc => by simp [encodeCompleted_iff] at hc
    idleUnused := fun _ => rfl
    frame := frame_congr h.frame rfl rfl rfl rfl rfl rfl rfl
    staged := heldBelow_of_eq_zero (by simp)
    written := heldBelow_of_eq_zero (by simp) }

/-- CONV_START keeps the invariant: for the semi-planar formats PLANE is filled before the frame begins (R121). -/
theorem effect_convStart_blockInv (h : BlockInv s) (he : Effect .convStart s t) : BlockInv t := by
  obtain ⟨-, f, hf, hn, ⟨hs, rfl⟩ | ⟨hs, ts, hts, rfl⟩⟩ := he
  · exact blockInv_beginFrame h hf (frameFault_eq_none.1 hn).1 fun hs' => by simp [hs] at hs'
  · obtain ⟨hd, hroom⟩ := frameFault_eq_none.1 hn
    have hsize : 3 * ts.length = 3 * s.srcWidth.toNat * s.srcHeight.toNat := by
      rw [frameTriplets_length hts, Nat.mul_assoc]
    have hfit : 0 + (rowBytes ts).length ≤ s.cfg.planeCap := by
      rw [rowBytes_length, Nat.zero_add, hsize]
      exact hroom hs
    exact blockInv_beginFrame (blockInv_storePlane h hfit) hf hd fun _ => hsize ▸ heldBelow_storeRow s.plane ts

/-- PUSH keeps the invariant.  The byte that fills the block is staged, the block emptied and its bytes appended: the
order of the last two does not matter (R182, R186). -/
theorem effect_push_blockInv {byte : Byte} (h : BlockInv s) (he : Effect (.push byte) s t) : BlockInv t := by
  obtain ⟨ho, -, -, ⟨hr, rfl⟩ | ⟨-, hfit, bs, hbs, rfl⟩⟩ := he
  · exact blockInv_stageByte h ho hr byte
  · have hstored := blockInv_storeStg h (bs := [byte]) (stage_address_lt h)
    have hemptied := blockInv_emptyStaging hstored
    exact blockInv_appendBytes (s := emptyStaging (stageByte byte s)) hemptied ho (by rwa [loadBytes_length hbs])

/-- A command that has its effect keeps the invariant. -/
theorem effect_blockInv (h : BlockInv s) (he : Effect i s t) : BlockInv t := by
  cases i with
  | nop => obtain rfl : t = s := he; exact h
  | rdreg reg => obtain rfl : t = _ := he; exact blockInv_ports h _ _
  | wrcfg reg val =>
    obtain ⟨r, -, -, hc, rfl⟩ := he
    exact blockInv_writeConfig h hc r val
  | convStart => exact effect_convStart_blockInv h he
  | convLine =>
    obtain ⟨hc, f, ts, -, hts, rfl⟩ := he
    exact blockInv_deliverRow h hc (scanline_length hts)
  | sinkInit => exact effect_sinkInit_blockInv h he
  | push byte => exact effect_push_blockInv h he
  | sinkFinal =>
    obtain ⟨ho, -, hfit, bs, hbs, rfl⟩ := he
    exact blockInv_closeSink (blockInv_appendBytes h ho (by rwa [loadBytes_length hbs]))

/-- Every command keeps the invariant. -/
theorem exec_blockInv (h : BlockInv s) (he : exec i s = .next t) : BlockInv t := by
  rcases exec_cases he with ⟨-, rfl, -⟩ | ⟨-, -, c, rfl⟩ | ⟨-, heff⟩
  · exact h
  · exact blockInv_latch h _
  · exact effect_blockInv h heff

/-- Every word on the port keeps the invariant. -/
theorem runWord_blockInv {w : Word} (h : BlockInv s) (he : runWord w s = .next t) : BlockInv t := by
  rcases runWord_cases he with ⟨i, -, hexec⟩ | ⟨-, rfl⟩ | ⟨-, rfl⟩
  · exact exec_blockInv h hexec
  · exact h
  · exact blockInv_latch h _

theorem resetBlock_blockInv (h : BlockInv s) : BlockInv (resetBlock s) :=
  blockInv_resetBlock (h.wf .src) (h.wf .dst) h.srcSize h.dstSize

/-- Both resets keep the invariant. -/
theorem resetAbandoning_blockInv (h : BlockInv s) (w : Word) : BlockInv (resetAbandoning w s) := by
  rcases resetAbandoning_cases w s with he | he <;> rw [he]
  · exact resetBlock_blockInv h
  · exact blockInv_forgetDst (resetBlock_blockInv h) rfl

/-- Settles O27: the reset state is what a reset makes of itself. -/
theorem resetMeetsTheInvariant : Obligations.ResetMeetsTheInvariant :=
  blockInv_resetBlock (s := State.reset) .nil .nil (withinSpace_empty _) (withinSpace_empty _)

/-- Settles O28: each move of an outside agent keeps the invariant, by the lemma of the update it makes. -/
theorem stepKeepsTheInvariant : Obligations.StepKeepsTheInvariant := by
  intro s t h hstep
  rcases step_cases hstep with ⟨-, rfl⟩ | ⟨rest, hmove⟩
  · exact h
  have hrest : BlockInv { s with inbox := rest } := blockInv_ports h rest s.responses
  rcases hmove with ⟨w, -, hw⟩ | ⟨a, bs, -, hw⟩ | ⟨-, rfl⟩ | ⟨w, -, rfl⟩
  · exact runWord_blockInv hrest hw
  · obtain ⟨hb, hc, rfl⟩ := hostWriteSrc_eq_next hw
    exact blockInv_storeSrc hrest (by simpa [srcWritable] using hc) hb
  · exact resetBlock_blockInv hrest
  · exact resetAbandoning_blockInv hrest w

end Sys2Proof.Machine
end

section
/-! PROOFS. From a state that meets the invariant every word on the port ends in a next state, but for a conversion that
reads a SRC byte the host has not provided (spec/93_implementation_defined.md U1, U3, U4). -/

namespace Sys2Proof.Machine

variable {s t : State} {r : Result} {i : Instr}

/-! ### Operations that answer -/

/-- What is done unless a fault is recorded answers if it answers without one (R110). -/
theorem unlessFaulted_answers (h : Live s → ∃ t, r = .next t) : ∃ t, unlessFaulted s r = .next t := by
  cases hf : s.faulted with
  | true => exact ⟨s, unlessFaulted_faulted hf⟩
  | false => exact (h hf).imp fun t ht => by rw [unlessFaulted_live hf, ht]

theorem unlessFaulted_answers_or {stop : Result} (h : Live s → (∃ t, r = .next t) ∨ r = stop) :
    (∃ t, unlessFaulted s r = .next t) ∨ unlessFaulted s r = stop := by
  cases hf : s.faulted with
  | true => exact .inl ⟨s, unlessFaulted_faulted hf⟩
  | false =>
    rw [unlessFaulted_live hf]
    exact h hf

theorem raiseFault_answers (c : Cause) (op : Byte) (s : State) : ∃ t, raiseFault c op s = .next t := ⟨_, rfl⟩

/-- An append of staged bytes that all hold a value answers (R184). -/
theorem appendStaged_answers {n : Nat} (h : HeldBelow s.stg n) (k : State → State) :
    ∃ t, appendStaged n s k = .next t := by
  obtain ⟨bs, hbs⟩ := loadBytes_of_heldBelow h
  exact ⟨_, appendStaged_eq_next.2 ⟨bs, hbs, rfl⟩⟩

/-- The byte that fills the staging block leaves no hole in it (R182). -/
theorem heldBelow_stageByte_full (h : BlockInv s) (hr : s.stgRemaining.toNat = 1) (byte : Byte) :
    HeldBelow (stageByte byte s).stg Config.stgCapacity := by
  have hstaged := heldBelow_extend (bs := [byte]) h.staged
  rw [hr] at hstaged
  simpa [hr] using hstaged

/-- A scanline of a semi-planar frame in progress has every byte (R165). -/
theorem scanline_of_semiPlanar {f : Format} (hf : FrameInProgress f s) (hs : semiPlanar f = true) :
    ∃ ts, scanline f s s.nextRow.toNat = some ts := by
  refine scanline_of_isSome fun x hx => ?_
  have hpixel := planePixel_isSome (hf.plane hs) hx hf.row
  cases f with
  | nv12 | nv16 | nv24 => exact hpixel
  | yuyv | uyvy | rgb565 | rgb24 | bgr24 => exact absurd hs (by simp [semiPlanar])

/-! ### The commands -/

theorem execWrcfg_answers (reg : Byte) (val : Half) (s : State) : ∃ t, execWrcfg reg val s = .next t := by
  refine unlessFaulted_answers fun _ => ?_
  split
  · exact raiseFault_answers _ _ s
  · split
    · exact raiseFault_answers _ _ s
    · split
      · exact raiseFault_answers _ _ s
      · exact ⟨_, rfl⟩

theorem execSinkInit_answers (s : State) : ∃ t, execSinkInit s = .next t := by
  refine unlessFaulted_answers fun _ => ?_
  split
  · exact raiseFault_answers _ _ s
  · exact ⟨_, rfl⟩

/-- PUSH finds a possible staging level and every staged byte (R182, R32). -/
theorem execPush_answers (h : BlockInv s) (byte : Byte) : ∃ t, execPush byte s = .next t := by
  have hlow := h.levelLow
  have hhigh := h.levelHigh
  refine unlessFaulted_answers fun _ => ?_
  split
  · rw [if_neg (by omega)]
    split
    · next hr =>
      split
      · exact appendStaged_answers (heldBelow_stageByte_full h hr byte) _
      · exact raiseFault_answers _ _ s
    · exact ⟨_, rfl⟩
  · exact raiseFault_answers _ _ s

/-- SINK_FINAL finds a possible staging level and every staged byte (R185, R32). -/
theorem execSinkFinal_answers (h : BlockInv s) : ∃ t, execSinkFinal s = .next t := by
  have hhigh := h.levelHigh
  refine unlessFaulted_answers fun _ => ?_
  split
  · rw [if_neg (by omega)]
    split
    · exact appendStaged_answers h.staged _
    · exact raiseFault_answers _ _ s
  · exact raiseFault_answers _ _ s

theorem startFrame_answers_or (f : Format) (s : State) :
    (∃ t, startFrame f s = .next t) ∨ startFrame f s = .fault .srcNotProvided := by
  unfold startFrame
  split
  · split
    · exact .inl ⟨_, rfl⟩
    · exact .inr rfl
  · exact .inl ⟨_, rfl⟩

/-- CONV_START stops only for a SRC byte not provided (R121, U3). -/
theorem execConvStart_answers_or (s : State) :
    (∃ t, execConvStart s = .next t) ∨ execConvStart s = .fault .srcNotProvided := by
  refine unlessFaulted_answers_or fun _ => ?_
  split
  · exact .inl (raiseFault_answers _ _ s)
  · split
    · exact .inl (raiseFault_answers _ _ s)
    · split
      · exact .inl (raiseFault_answers _ _ s)
      · exact startFrame_answers_or _ s

/-- CONV_LINE finds a supported format and a filled PLANE, so it too stops only for a SRC byte not provided (R124,
R125, U3). -/
theorem execConvLine_answers_or (h : BlockInv s) :
    (∃ t, execConvLine s = .next t) ∨ execConvLine s = .fault .srcNotProvided := by
  refine unlessFaulted_answers_or fun _ => ?_
  split
  · next hc =>
    obtain ⟨f, hframe⟩ := h.frame hc
    simp only [hframe.tag]
    cases hline : scanline f s s.nextRow.toNat with
    | some ts => exact .inl ⟨_, rfl⟩
    | none =>
      refine .inr (congrArg Host.Outcome.fault (if_neg fun hs => ?_))
      obtain ⟨ts, hts⟩ := scanline_of_semiPlanar hframe hs
      simp [hts] at hline
  · exact .inl (raiseFault_answers _ _ s)

/-- A command from a state that meets the invariant answers, or is a conversion and stops for a SRC byte not provided. -/
theorem exec_answers_or (h : BlockInv s) (i : Instr) :
    (∃ t, exec i s = .next t) ∨ (exec i s = .fault .srcNotProvided ∧ (i = .convStart ∨ i = .convLine)) := by
  cases i with
  | nop | rdreg => exact .inl ⟨_, rfl⟩
  | wrcfg reg val => exact .inl (execWrcfg_answers reg val s)
  | convStart => exact (execConvStart_answers_or s).imp id fun hstop => ⟨hstop, .inl rfl⟩
  | convLine => exact (execConvLine_answers_or h).imp id fun hstop => ⟨hstop, .inr rfl⟩
  | sinkInit => exact .inl (execSinkInit_answers s)
  | push byte => exact .inl (execPush_answers h byte)
  | sinkFinal => exact .inl (execSinkFinal_answers h)

/-- A word on the port answers, or is one of the two conversions. -/
theorem runWord_answers_or (h : BlockInv s) (w : Word) :
    (∃ t, runWord w s = .next t) ∨
      (runWord w s = .fault .srcNotProvided ∧ (decode w = .ok .convStart ∨ decode w = .ok .convLine)) := by
  unfold runWord
  cases decode w with
  | ok i => exact (exec_answers_or h i).imp id fun ⟨hstop, hi⟩ => ⟨hstop, hi.imp (congrArg _) (congrArg _)⟩
  | error why => exact .inl (unlessFaulted_answers fun _ => raiseFault_answers _ _ s)

/-- The host's write of SRC answers or is refused for one of two reasons (R30, R247, U4). -/
theorem hostWriteSrc_answers_or (a : Nat) (bs : List Byte) (s : State) :
    (∃ t, hostWriteSrc a bs s = .next t) ∨
      (hostWriteSrc a bs s = .refused .srcWriteMidFrame ∨ hostWriteSrc a bs s = .refused .srcAddressOutside) := by
  unfold hostWriteSrc
  split
  · exact .inr (.inr rfl)
  · split
    · exact .inl ⟨_, rfl⟩
    · exact .inr (.inl rfl)

/-- Settles O29: by the kind of the pending move; only the conversions and the host's write do not always answer. -/
theorem invariantLeavesOnlyTheHostsStops : Obligations.InvariantLeavesOnlyTheHostsStops := by
  intro s h
  cases hin : s.inbox with
  | nil => exact .inl ⟨s, by simp [step, hin]⟩
  | cons m rest =>
    have hstep : step s = takeMove m { s with inbox := rest } := by simp [step, hin]
    rw [hstep]
    cases m with
    | command w =>
      exact (runWord_answers_or (blockInv_ports h rest s.responses) w).imp id
        fun ⟨hstop, hdec⟩ => .inl ⟨hstop, rest, w, rfl, hdec⟩
    | hostWriteSrc a bs =>
      exact (hostWriteSrc_answers_or a bs _).imp id fun href => .inr ⟨rest, a, bs, rfl, href⟩
    | reset | resetDuring w => exact .inl ⟨_, rfl⟩

end Sys2Proof.Machine
end

section
/-! PROOFS. STATUS bit by bit (spec/10_state.md R25), the two resets (R33, R230), the host's write of SRC (R30), and why
R32 item 4 does not survive a WRCFG in C_DONE (R112). -/

namespace Sys2Proof.Machine

variable {s t : State}

/-! ### STATUS -/

theorem status_cphase_field (s : State) : (regValue .status s).extractLsb' 0 2 = cphaseCode s.cphase := by
  simp only [regValue, statusWord]
  rw [BitVec.extractLsb'_setWidth_of_le (by decide), BitVec.extractLsb'_append_eq_of_add_le (by decide),
    BitVec.extractLsb'_eq_self]

theorem status_sphase_field (s : State) : (regValue .status s).extractLsb' 2 2 = sphaseCode s.sphase := by
  simp only [regValue, statusWord]
  rw [BitVec.extractLsb'_setWidth_of_le (by decide), BitVec.extractLsb'_append_eq_of_le (by decide),
    BitVec.extractLsb'_append_eq_of_add_le (by decide), BitVec.extractLsb'_eq_self]

/-- From bit 4 on STATUS holds what the fault records (R25). -/
theorem status_latch_field (s : State) {k len : Nat} (h : 4 + k + len ≤ 32) :
    (regValue .status s).extractLsb' (4 + k) len = (latchBits s.latch).extractLsb' k len := by
  simp only [regValue, statusWord]
  rw [BitVec.extractLsb'_setWidth_of_le h, BitVec.extractLsb'_append_eq_of_le (by omega),
    BitVec.extractLsb'_append_eq_of_le (by omega)]
  congr 1
  omega

theorem latchBits_fault_field (l : Option FaultRecord) :
    (latchBits l).extractLsb' 0 1 = if l.isSome then 1#1 else 0#1 := by
  cases l with
  | none => rfl
  | some r =>
    simp only [latchBits]
    rw [BitVec.extractLsb'_append_eq_of_add_le (by decide), BitVec.extractLsb'_eq_self]
    rfl

theorem latchBits_cause_field (r : FaultRecord) : (latchBits (some r)).extractLsb' 1 3 = causeCode r.cause := by
  simp only [latchBits]
  rw [BitVec.extractLsb'_append_eq_of_le (by decide), BitVec.extractLsb'_append_eq_of_add_le (by decide),
    BitVec.extractLsb'_eq_self]

theorem latchBits_op_field (r : FaultRecord) : (latchBits (some r)).extractLsb' 4 8 = r.op := by
  simp only [latchBits]
  rw [BitVec.extractLsb'_append_eq_of_le (by decide), BitVec.extractLsb'_append_eq_of_le (by decide),
    BitVec.extractLsb'_eq_self]

/-- Settles O14: each field is the code of its part, and the upper half lies above the twelve bits of a fault. -/
theorem statusFieldsStandWhereListed : Obligations.StatusFieldsStandWhereListed := by
  intro s
  refine ⟨?_, ?_, ?_, ?_, ?_, ?_⟩
  · rw [status_cphase_field]
    cases s.cphase <;> rfl
  · rw [status_sphase_field]
    cases s.sphase <;> rfl
  · exact (status_latch_field s (k := 0) (by decide)).trans (latchBits_fault_field s.latch)
  · rw [status_latch_field s (k := 1) (by decide)]
    cases s.latch with
    | none => rfl
    | some r =>
      rw [latchBits_cause_field]
      obtain ⟨cause, op⟩ := r
      cases cause <;> rfl
  · rw [status_latch_field s (k := 4) (by decide)]
    cases s.latch with
    | none => rfl
    | some r => exact latchBits_op_field r
  · rw [status_latch_field s (k := 12) (by decide)]
    ext n hn
    simp

/-! ### Reset -/

theorem regValue_resetBlock (r : RegName) (s : State) : regValue r (resetBlock s) = regValue r State.reset := by
  cases r <;> rfl

theorem regValue_reset {r : RegName} (h : r ≠ .stgRemaining) : regValue r State.reset = 0#32 := by
  cases r with
  | stgRemaining => exact absurd rfl h
  | status | srcFormat | srcWidth | srcHeight | srcPadding | nextRow | dstUsed | dstCap | dstFormat | dstWidth
  | dstHeight => rfl

/-- Settles O15: the registers are those of the reset state, and SRC, DST and the parameters are carried over. -/
theorem resetGivesTheResetValues : Obligations.ResetGivesTheResetValues := by
  intro s rest hin
  refine ⟨resetBlock { s with inbox := rest }, by simp [step, hin, takeMove], rfl, fun r hr => ?_, rfl,
    fun _ => rfl, fun _ => rfl, rfl⟩
  rw [regValue_resetBlock, regValue_reset hr]

/-- What either reset forgets and what stays on the ports (R33, R230). -/
theorem resetAbandoning_forgets (w : Word) (s : State) :
    (resetAbandoning w s).plane = [] ∧ (resetAbandoning w s).line = [] ∧ (resetAbandoning w s).stg = [] ∧
      (resetAbandoning w s).inbox = s.inbox ∧ (resetAbandoning w s).responses = s.responses := by
  rcases resetAbandoning_cases w s with he | he <;> rw [he] <;> simp

/-- Settles O16: both resets leave the three scratch memories empty and take nothing off the ports. -/
theorem resetForgetsTheScratchMemories : Obligations.ResetForgetsTheScratchMemories := by
  intro s t m rest hin hm h
  have hmove : takeMove m { s with inbox := rest } = .next t := by simpa [step, hin] using h
  rcases hm with rfl | ⟨w, rfl⟩
  · obtain rfl := Host.Outcome.next.inj hmove
    exact ⟨fun _ => ⟨rfl, rfl, rfl⟩, rfl, rfl⟩
  · obtain rfl := Host.Outcome.next.inj hmove
    obtain ⟨hplane, hline, hstg, hinbox, hresp⟩ := resetAbandoning_forgets w { s with inbox := rest }
    exact ⟨fun a => by simp [peek, spaceOf, hplane, hline, hstg], hinbox, hresp⟩

/-! ### The host's write of SRC -/

theorem hostWriteSrc_next {a : Nat} {bs : List Byte} (hc : s.cphase ≠ .active) (hb : a + bs.length ≤ Config.srcSpace) :
    hostWriteSrc a bs s = .next { s with src := storeBytes s.src a bs } := by
  rw [hostWriteSrc, if_neg (by omega), if_pos (by simpa [srcWritable] using hc)]

/-- Settles O60: the write completes, is of SRC alone, and reads back as written. -/
theorem hostWritesSourceBetweenFrames : Obligations.HostWritesSourceBetweenFrames := by
  intro s addr bytes hc hb
  refine ⟨_, hostWriteSrc_next hc hb, untouched_storeSrc s addr bytes, fun i hi => ?_, fun a ha => ?_⟩
  · rw [List.getElem?_eq_getElem hi]
    exact readByte_storeBytes_inside hi
  · exact readByte_storeBytes_outside ha

/-! ### R32 item 4 -/

/-- A block that has delivered its frame of one RGB24 pixel, with WRCFG SRC_HEIGHT, 5 on the port. -/
def deliveredFrame : State :=
  { State.reset with
    cphase := .done, srcFormat := 0x0004#16, srcWidth := 1#16, srcHeight := 1#16, nextRow := 1#16
    src := storeBytes [] 0 [1#8, 2#8, 3#8], line := storeBytes [] 0 [1#8, 2#8, 3#8]
    inbox := [.command 0x01030005#32] }

theorem blockInv_deliveredFrame : BlockInv deliveredFrame :=
  { resetMeetsTheInvariant with
    wf := wf_of_spaces (storeBytes_wf .nil _ _) .nil (storeBytes_wf .nil _ _) .nil .nil
    srcSize := withinSpace_storeBytes (withinSpace_empty _) (by decide)
    lineSize := withinSpace_storeBytes (withinSpace_empty _) (by decide)
    completedReady := fun hc => nomatch hc
    frame := fun ha => nomatch ha }

/-- The WRCFG completes and changes SRC_HEIGHT alone (R112). -/
theorem step_deliveredFrame :
    step deliveredFrame = .next { deliveredFrame with srcHeight := 5#16, inbox := [] } := rfl

/-- Refutes O30: after a delivered frame of one row, in C_DONE, WRCFG SRC_HEIGHT, 5 leaves NEXT_ROW = 1 (R112). -/
theorem not_doneMeansNextRowIsHeight : ¬ Obligations.DoneMeansNextRowIsHeight := by
  intro h
  have heq : (1#16 : Half) = 5#16 :=
    h deliveredFrame _ blockInv_deliveredFrame rfl (fun _ => rfl) step_deliveredFrame rfl rfl
  exact absurd heq (by decide)

end Sys2Proof.Machine
end

section
/-! PROOFS. Which SRC bytes a conversion reads: none at or above the source extent (spec/20_memory.md R66), none of a
row's padding (R74, R75), and none at all once CONV_START has filled PLANE (R73). -/

namespace Sys2Proof.Machine

variable {s s' t : State} {f : Format} {w h pad x y y' k a : Nat}

/-! ### The bytes of a pixel -/

/-- The extent of a frame read row by row is its rows, padding included (R65, R66). -/
theorem srcExtent_eq_rows (hf : semiPlanar f = false) : srcExtent f w h pad = h * stride f w pad := by
  cases f with
  | yuyv | uyvy | rgb565 | rgb24 | bgr24 => simp [srcExtent, stride, bytesPerPixel, Nat.mul_comm w]
  | nv12 | nv16 | nv24 => exact nomatch hf

/-- The pixel bytes of a row lie inside the extent (R66). -/
theorem rowByte_lt_extent (hf : semiPlanar f = false) (hy : y < h) (hk : k < w * bytesPerPixel f) :
    rowBase f w pad y + k < srcExtent f w h pad := by
  rw [srcExtent_eq_rows hf]
  exact row_offset_lt hy (Nat.lt_add_right pad hk)

/-- A pixel of a format read row by row depends on the pixel bytes of its row only, wherever the row stands (R74).  The
last group of a 4:2:2 row is whole because the width is even (R123). -/
theorem linePixel_congr (hf : semiPlanar f = false) (heven : sharesColumns f → s.srcWidth.toNat % 2 = 0)
    (hw : s'.srcWidth = s.srcWidth) (hx : x < s.srcWidth.toNat)
    (hrow : ∀ k, k < s.srcWidth.toNat * bytesPerPixel f →
      readByte s'.src (rowBase f s.srcWidth.toNat s'.srcPadding.toNat y' + k)
        = readByte s.src (rowBase f s.srcWidth.toNat s.srcPadding.toNat y + k)) :
    linePixel f s' x y' = linePixel f s x y := by
  cases f with
  | nv12 | nv16 | nv24 => exact nomatch hf
  | yuyv | uyvy =>
    have hgroup := heven rfl
    simp only [bytesPerPixel] at hrow
    simp only [linePixel, yuyvPixel, uyvyPixel, groupBase, hw, Nat.add_assoc]
    exact withThreeBytes_congr (hrow _ (by omega)) (hrow _ (by omega)) (hrow _ (by omega))
  | rgb565 =>
    simp only [bytesPerPixel] at hrow
    simp only [linePixel, rgb565Pixel, hw, Nat.add_assoc]
    exact withTwoBytes_congr (hrow _ (by omega)) (hrow _ (by omega))
  | rgb24 | bgr24 =>
    simp only [bytesPerPixel] at hrow
    simp only [linePixel, rgb24Pixel, bgr24Pixel, hw, Nat.add_assoc]
    exact withThreeBytes_congr (hrow _ (by omega)) (hrow _ (by omega)) (hrow _ (by omega))

/-- A pixel of a semi-planar frame depends on the bytes below the extent only (R66 to R68). -/
theorem semiPlanarPixel_congr {m m' : Memory} (hf : semiPlanar f = true) (hd : DimensionsFit f w h) (hx : x < w)
    (hy : y < h) (hm : ∀ a, a < srcExtent f w h pad → readByte m' a = readByte m a) :
    semiPlanarPixel f m' w h x y = semiPlanarPixel f m w h x y := by
  have hluma : lumaAddr w x y < srcExtent f w h pad := (lumaAddr_lt hx hy).trans_le (planeArea_le_extent hf)
  have hchroma := chromaAddr_succ_lt (pad := pad) hf hd hx hy
  exact withThreeBytes_congr (hm _ hluma) (hm _ (by omega)) (hm _ hchroma)

/-- Settles O47: the bytes of a semi-planar pixel and those of a row's pixels lie below the extent. -/
theorem conversionReadsBelowTheExtent : Obligations.ConversionReadsBelowTheExtent := by
  intro f s m x y hd hx hy hm
  cases hf : semiPlanar f with
  | true => simpa only [sourcePixel, hf, if_true] using semiPlanarPixel_congr hf hd hx hy hm
  | false =>
    have hline : linePixel f { s with src := m } x y = linePixel f s x y :=
      linePixel_congr hf hd.evenWidth rfl hx fun k hk => hm _ (rowByte_lt_extent hf hy hk)
    simpa [sourcePixel, hf] using hline

/-! ### CONV_LINE -/

/-- The frame in progress is of the format SRC_FORMAT names (R32 item 3, R126). -/
theorem frameInProgress_of_tag (hinv : BlockInv s) (hc : s.cphase = .active) (hf : formatOfTag s.srcFormat = some f) :
    FrameInProgress f s := by
  obtain ⟨g, hframe⟩ := hinv.frame hc
  obtain rfl : f = g := Option.some.inj (hf.symm.trans hframe.tag)
  exact hframe

/-- With a frame in progress and no fault, CONV_LINE delivers the scanline of row NEXT_ROW exactly when every byte of it
is there (R124). -/
theorem exec_convLine_eq_next (hl : Live s) (hc : s.cphase = .active) (hf : formatOfTag s.srcFormat = some f) :
    exec .convLine s = .next t ↔ ∃ ts, scanline f s s.nextRow.toNat = some ts ∧ t = deliverRow ts s := by
  simp only [exec, execConvLine, unlessFaulted_live hl, hc, if_true, hf]
  cases scanline f s s.nextRow.toNat <;> simp [eq_comm]

/-- The delivered scanline stands at the start of LINE, whatever LINE held before (R69, R124). -/
theorem peek_deliverRow_line {ts : List Triplet} (ha : a < 3 * ts.length) :
    peek (deliverRow ts s) .line a = (rowBytes ts)[a]? := by
  simp [peek, spaceOf, readByte_storeBytes, ha]

/-- Two scanlines of one width are the same if their pixels are. -/
theorem scanline_congr (hw : s'.srcWidth = s.srcWidth)
    (hp : ∀ x, x < s.srcWidth.toNat → linePixel f s' x y' = linePixel f s x y) :
    scanline f s' y' = scanline f s y := by
  simp only [scanline, hw]
  exact congrArg allSome (List.map_congr_left fun x hx => hp x (List.mem_range.1 hx))

/-- Settles O48: the two rows have the same pixels, so both blocks store the same bytes in LINE. -/
theorem paddingNeverLeaksIntoAScanline : Obligations.PaddingNeverLeaksIntoAScanline := by
  intro s s' t f hinv hl' hc' hl hc hf hs htag hw hnext hrow h
  have hframe := frameInProgress_of_tag hinv hc hf
  obtain ⟨ts, hts, rfl⟩ := (exec_convLine_eq_next hl hc hf).1 h
  have hsame : scanline f s' s'.nextRow.toNat = scanline f s s.nextRow.toNat := by
    rw [hnext]
    exact scanline_congr hw fun x hx => linePixel_congr hs hframe.dims.evenWidth hw hx hrow
  refine ⟨_, (exec_convLine_eq_next hl' hc' (htag ▸ hf)).2 ⟨ts, hsame.trans hts, rfl⟩, fun a ha => ?_⟩
  rw [← scanline_length hts] at ha
  rw [peek_deliverRow_line ha, peek_deliverRow_line ha]

/-- A scanline of a semi-planar frame is read from PLANE, never from SRC (R165). -/
theorem scanline_semiPlanar_src (hs : semiPlanar f = true) (s : State) (m : Memory) (y : Nat) :
    scanline f { s with src := m } y = scanline f s y := by
  cases f with
  | nv12 | nv16 | nv24 => rfl
  | yuyv | uyvy | rgb565 | rgb24 | bgr24 => exact nomatch hs

/-- Settles O49: the scanline is the same with any SRC, and delivering it neither reads nor writes SRC. -/
theorem lateSourceWritesDoNotReachPlane : Obligations.LateSourceWritesDoNotReachPlane := by
  intro s m f hinv hl hc hf hs
  have hframe := frameInProgress_of_tag hinv hc hf
  obtain ⟨ts, hts⟩ := scanline_of_semiPlanar hframe hs
  have hts' : scanline f { s with src := m } s.nextRow.toNat = some ts := (scanline_semiPlanar_src hs s m _).trans hts
  exact ⟨deliverRow ts s, (exec_convLine_eq_next hl hc hf).2 ⟨ts, hts, rfl⟩,
    (exec_convLine_eq_next (s := { s with src := m }) hl hc hf).2 ⟨ts, hts', rfl⟩⟩

end Sys2Proof.Machine
end

section
/-! PROOFS. The encoding: decode and encode are inverse to each other (spec/30_encoding.md R90 to R93), the decoder is the
opcode map of R92, and the illegal words are those R94 lists. -/

namespace Sys2Proof

variable {w : Word} {i : Instr} {r : OpcodeRow}

/-! ### Decoding and encoding -/

/-- The word of a command has the command's opcode byte and operands in its fields (R90, R93). -/
theorem fields_encode (i : Instr) : opField (encode i) = i.opByte ∧ i.fieldsOf (encode i) := by
  cases i with
  | nop => exact Laws.WordFields.nop
  | wrcfg reg val => exact Laws.WordFields.wrcfg reg val
  | rdreg reg => exact Laws.WordFields.rdreg reg
  | convStart => exact Laws.WordFields.convStart
  | convLine => exact Laws.WordFields.convLine
  | sinkInit => exact Laws.WordFields.sinkInit
  | push byte => exact Laws.WordFields.push byte
  | sinkFinal => exact Laws.WordFields.sinkFinal

/-- A command's fields leave no bit of the word open. -/
theorem eq_encode_of_fields (hop : opField w = i.opByte) (hf : i.fieldsOf w) : w = encode i := by
  cases i with
  | nop | wrcfg | rdreg | convStart | convLine | sinkInit | sinkFinal => exact eq_cmd32_iff.2 ⟨hop, hf⟩
  | push byte =>
    obtain ⟨ha, hhigh, hbyte⟩ := hf
    exact eq_cmd32_iff.2 ⟨hop, ha, by rw [immField_halves, hhigh, hbyte]⟩

/-- The words that decode to a command are those with its fields, and only its own word has them (R91, R92). -/
theorem decode_eq_ok_iff : decode w = .ok i ↔ w = encode i := by
  constructor
  · intro h
    obtain ⟨hop, hf⟩ := decode_eq_ok h
    exact eq_encode_of_fields hop hf
  · rintro rfl
    obtain ⟨hop, hf⟩ := fields_encode i
    exact decode_of_fields hop hf

/-- Settles O1: the word of a command decodes to it, its fields being the command's. -/
theorem encodeThenDecodeGivesTheCommand : Obligations.EncodeThenDecodeGivesTheCommand :=
  fun _ => decode_eq_ok_iff.2 rfl

/-- Settles O2: a word that decodes to a command is the command's word, since its fields are the command's. -/
theorem decodeThenEncodeGivesTheWord : Obligations.DecodeThenEncodeGivesTheWord :=
  fun _ _ h => (decode_eq_ok_iff.1 h).symm

/-- Settles O5: each of the twelve words is decoded. -/
theorem specWordsDecodeAsListed : Obligations.SpecWordsDecodeAsListed := by
  refine ⟨?_, ?_, ?_, ?_, ?_, ?_, ?_, ?_, ?_, ?_, ?_, ?_⟩ <;> decide

/-! ### The opcode map (R92) -/

/-- The row of a command in the opcode map: its opcode byte, zero operands, and a mask that leaves its operands out. -/
def Instr.row (i : Instr) : OpcodeRow where
  mnemonic := i.mnemonic
  pattern := cmd32 i.opByte 0#8 0#16
  mask := match i with
    | .wrcfg _ _ => cmd32 0xFF#8 0x00#8 0x0000#16
    | .rdreg _ => cmd32 0xFF#8 0x00#8 0xFFFF#16
    | .push _ => cmd32 0xFF#8 0xFF#8 0xFF00#16
    | .nop | .convStart | .convLine | .sinkInit | .sinkFinal => cmd32 0xFF#8 0xFF#8 0xFFFF#16

/-- The opcode map as R92 prints it holds exactly the rows of the commands. -/
theorem mem_opcodeMap_iff : r ∈ opcodeMap ↔ ∃ i : Instr, r = i.row := by
  have hmap : opcodeMap = [Instr.nop.row, (Instr.wrcfg 0#8 0#16).row, (Instr.rdreg 0#8).row, Instr.convStart.row,
      Instr.convLine.row, Instr.sinkInit.row, (Instr.push 0#8).row, Instr.sinkFinal.row] := by decide
  rw [hmap]
  constructor
  · simp only [List.mem_cons, List.not_mem_nil, or_false]
    rintro (h | h | h | h | h | h | h | h) <;> exact ⟨_, h⟩
  · rintro ⟨i, rfl⟩
    cases i <;> simp [Instr.row, Instr.mnemonic, Instr.opByte]

theorem byte_and_ones (b : Byte) : b &&& 0xFF#8 = b := BitVec.and_allOnes

theorem half_and_ones (v : Half) : v &&& 0xFFFF#16 = v := BitVec.and_allOnes

/-- The mask of PUSH wants the upper byte of the immediate to be zero (R92). -/
theorem halves_and_high_eq_zero {hi lo : Byte} : (hi ++ lo : Half) &&& 0xFF00#16 = 0#16 ↔ hi = 0#8 := by
  have hmask : (0xFF00#16 : Half) = (0xFF#8 : Byte) ++ (0#8 : Byte) := rfl
  have hzero : (0#16 : Half) = (0#8 : Byte) ++ (0#8 : Byte) := rfl
  rw [hmask, hzero, BitVec.and_append, byte_and_ones, BitVec.and_zero, BitVec.append_left_inj]

/-- A row selects the words with its opcode byte whose masked fields below are zero. -/
theorem selects_iff_fields {name : String} {op a : Byte} {imm : Half} :
    OpcodeRow.selects ⟨name, cmd32 op 0#8 0#16, cmd32 0xFF#8 a imm⟩ w = true ↔
      opField w = op ∧ aField w &&& a = 0#8 ∧ immField w &&& imm = 0#16 := by
  have hmasked : w &&& cmd32 0xFF#8 a imm = cmd32 (opField w) (aField w &&& a) (immField w &&& imm) := by
    conv_lhs => rw [← cmd32_fields w, cmd32_and, byte_and_ones]
  rw [OpcodeRow.selects, beq_iff_eq, hmasked, eq_cmd32_iff]
  simp

/-- A word with a command's fields matches the command's row. -/
theorem selects_of_fields (hop : opField w = i.opByte) (hf : i.fieldsOf w) : i.row.selects w = true := by
  cases i with
  | nop | convStart | convLine | sinkInit | sinkFinal | rdreg | wrcfg =>
    obtain ⟨ha, himm⟩ := hf
    exact selects_iff_fields.2 ⟨hop, by simp [ha], by simp [himm]⟩
  | push byte =>
    obtain ⟨ha, hhigh, -⟩ := hf
    exact selects_iff_fields.2 ⟨hop, by simp [ha], by rw [immField_halves, halves_and_high_eq_zero, hhigh]⟩

/-- A word that matches a row decodes to a command of that row. -/
theorem decode_of_selects (h : i.row.selects w = true) : ∃ j : Instr, j.row = i.row ∧ decode w = .ok j := by
  cases i with
  | nop | convStart | convLine | sinkInit | sinkFinal =>
    obtain ⟨hop, ha, himm⟩ := selects_iff_fields.1 h
    rw [byte_and_ones] at ha
    rw [half_and_ones] at himm
    exact ⟨_, rfl, decode_of_fields hop ⟨ha, himm⟩⟩
  | wrcfg =>
    obtain ⟨hop, -, -⟩ := selects_iff_fields.1 h
    exact ⟨.wrcfg (aField w) (immField w), rfl, decode_of_fields hop ⟨rfl, rfl⟩⟩
  | rdreg =>
    obtain ⟨hop, -, himm⟩ := selects_iff_fields.1 h
    rw [half_and_ones] at himm
    exact ⟨.rdreg (aField w), rfl, decode_of_fields hop ⟨rfl, himm⟩⟩
  | push =>
    obtain ⟨hop, ha, himm⟩ := selects_iff_fields.1 h
    rw [byte_and_ones] at ha
    rw [immField_halves, halves_and_high_eq_zero] at himm
    exact ⟨.push (byteField w), rfl, decode_of_fields hop ⟨ha, himm, rfl⟩⟩

/-- Settles O3: the rows of the map are the rows of the commands, and a word matches the row of what it decodes to. -/
theorem decodeFollowsTheOpcodeMap : Obligations.DecodeFollowsTheOpcodeMap := by
  refine ⟨fun w i h => ?_, fun w r hr hsel => ?_, fun w r hr r' hr' hsel hsel' => ?_⟩
  · obtain ⟨hop, hf⟩ := decode_eq_ok h
    exact ⟨hop, hf, i.row, mem_opcodeMap_iff.2 ⟨i, rfl⟩, rfl, selects_of_fields hop hf⟩
  · obtain ⟨i, rfl⟩ := mem_opcodeMap_iff.1 hr
    obtain ⟨j, hrow, h⟩ := decode_of_selects hsel
    exact ⟨j, h, congrArg OpcodeRow.mnemonic hrow⟩
  · obtain ⟨i, rfl⟩ := mem_opcodeMap_iff.1 hr
    obtain ⟨i', rfl⟩ := mem_opcodeMap_iff.1 hr'
    obtain ⟨j, hrow, h⟩ := decode_of_selects hsel
    obtain ⟨j', hrow', h'⟩ := decode_of_selects hsel'
    obtain rfl : j = j' := Except.ok.inj (h.symm.trans h')
    exact hrow.symm.trans hrow'

/-! ### Illegal words (R94) -/

/-- Which words are legal, in the fields R94 names. -/
theorem legal_iff : (∃ i, decode w = .ok i) ↔
    opField w = 0x01#8 ∨
      (opField w ∈ [0x00#8, 0x10#8, 0x11#8, 0x20#8, 0x22#8] ∧ w.extractLsb' 0 24 = 0#24) ∨
      (opField w = 0x02#8 ∧ w.extractLsb' 0 16 = 0#16) ∨
      (opField w = 0x21#8 ∧ w.extractLsb' 8 16 = 0#16) := by
  rw [low24_eq_zero_iff, mid16_eq_zero_iff]
  constructor
  · rintro ⟨i, h⟩
    obtain ⟨hop, hf⟩ := decode_eq_ok h
    rw [hop]
    cases i with
    | wrcfg => exact .inl rfl
    | nop | convStart | convLine | sinkInit | sinkFinal => exact .inr (.inl ⟨by simp [Instr.opByte], hf⟩)
    | rdreg =>
      obtain ⟨-, himm⟩ := hf
      exact .inr (.inr (.inl ⟨rfl, himm⟩))
    | push =>
      obtain ⟨ha, hhigh, -⟩ := hf
      exact .inr (.inr (.inr ⟨rfl, ha, hhigh⟩))
  · simp only [List.mem_cons, List.not_mem_nil, or_false]
    rintro (hop | ⟨hop | hop | hop | hop | hop, hz⟩ | ⟨hop, himm⟩ | ⟨hop, ha, hhigh⟩)
    · exact ⟨.wrcfg (aField w) (immField w), decode_of_fields hop ⟨rfl, rfl⟩⟩
    · exact ⟨.nop, decode_of_fields hop hz⟩
    · exact ⟨.convStart, decode_of_fields hop hz⟩
    · exact ⟨.convLine, decode_of_fields hop hz⟩
    · exact ⟨.sinkInit, decode_of_fields hop hz⟩
    · exact ⟨.sinkFinal, decode_of_fields hop hz⟩
    · exact ⟨.rdreg (aField w), decode_of_fields hop ⟨rfl, himm⟩⟩
    · exact ⟨.push (byteField w), decode_of_fields hop ⟨ha, hhigh, rfl⟩⟩

theorem illegal_iff_not_legal : (∃ why, decode w = .error why) ↔ ¬∃ i, decode w = .ok i := by
  cases decode w <;> simp

/-- Which words are illegal, as R94 lists them. -/
theorem illegal_iff : (∃ why, decode w = .error why) ↔
    (opField w ∉ [0x00#8, 0x01#8, 0x02#8, 0x10#8, 0x11#8, 0x20#8, 0x21#8, 0x22#8]) ∨
      (opField w ∈ [0x00#8, 0x10#8, 0x11#8, 0x20#8, 0x22#8] ∧ w.extractLsb' 0 24 ≠ 0#24) ∨
      (opField w = 0x02#8 ∧ w.extractLsb' 0 16 ≠ 0#16) ∨
      (opField w = 0x21#8 ∧ w.extractLsb' 8 16 ≠ 0#16) := by
  rw [illegal_iff_not_legal, legal_iff]
  by_cases hop : opField w ∈ [0x00#8, 0x01#8, 0x02#8, 0x10#8, 0x11#8, 0x20#8, 0x21#8, 0x22#8]
  · simp only [List.mem_cons, List.not_mem_nil, or_false] at hop
    rcases hop with hop | hop | hop | hop | hop | hop | hop | hop <;> simp [hop]
  · simp only [List.mem_cons, List.not_mem_nil, or_false, not_or] at hop
    simp [hop]

end Sys2Proof
end

section
/-! PROOFS. A word on the port: a command runs, an illegal word faults or is ignored (spec/30_encoding.md R91, R94), WRCFG
by its pseudocode (spec/40_port_and_config.md R112) and the four that SETFRAME stands for (R101). -/

namespace Sys2Proof.Machine

variable {s : State} {i : Instr} {w : Word}

/-! ### A word on the port -/

theorem runWord_command (h : decode w = .ok i) (s : State) : runWord w s = exec i s := by
  rw [runWord, h]

theorem runWord_illegal {why : Illegal} (h : decode w = .error why) (s : State) : runWord w s = rejectWord w s := by
  rw [runWord, h]

theorem step_command {rest : List Move} (h : s.inbox = .command w :: rest) :
    step s = runWord w { s with inbox := rest } := by
  simp only [step, h, takeMove]

/-- Settles O8: the step takes the word, and a word that decodes to a command runs it. -/
theorem stepRunsTheDecodedCommand : Obligations.StepRunsTheDecodedCommand := by
  intro s w rest i hin hdec
  rw [step_command hin, runWord_command hdec]

/-- A presented word stands first on the port and is not cut. -/
theorem withFetchWord_inbox (s : State) (w : Word) :
    (s.withFetchWord 32 w.toNat).inbox = .command w :: s.inbox := by
  rw [State.withFetchWord, Nat.mod_eq_of_lt w.isLt, BitVec.ofNat_toNat, BitVec.setWidth_eq]

/-- Settles O9: the word is the first pending move, it decodes to the command, and taking it leaves what was pending
before. -/
theorem presentedWordRunsNext : Obligations.PresentedWordRunsNext := fun s i =>
  stepRunsTheDecodedCommand _ _ _ i (withFetchWord_inbox s (encode i)) (encodeThenDecodeGivesTheCommand i)

/-! ### WRCFG (R112) -/

/-- WRCFG of an undefined or a read-only register faults (R94, R112). -/
theorem wrcfg_faults_index {reg : Byte} (val : Half) (hl : Live s) (hreg : ¬(1 ≤ reg.toNat ∧ reg.toNat ≤ 4)) :
    Faults (.wrcfg reg val) s .contractViolation := by
  simp only [Faults, exec, execWrcfg, unlessFaulted_live hl]
  cases hr : regOfIndex reg with
  | none => rfl
  | some r =>
    have hro : hostMayWrite r = false := by
      rw [← Bool.not_eq_true, hostMayWrite_iff, regOfIndex_eq_some.1 hr]
      exact hreg
    simp only [hro, if_true]
    rfl

/-- WRCFG of a register the host may write completes outside C_ACTIVE (R112). -/
theorem exec_wrcfg_next {r : RegName} (val : Half) (hl : Live s) (hw : hostMayWrite r = true) (hc : s.cphase ≠ .active) :
    exec (.wrcfg (registerIndex r) val) s = .next (writeConfig r val s) := by
  simp [exec, execWrcfg, unlessFaulted_live hl, regOfIndex_registerIndex, hw, hc]

/-- Settles O4: the listed words are the illegal ones, one is rejected, and the words with op 0x01 are the WRCFGs. -/
theorem illegalWordsFaultOrAreIgnored : Obligations.IllegalWordsFaultOrAreIgnored := by
  refine ⟨fun w => illegal_iff, fun w why s hdec hl => ?_, fun w why s hdec hf => ?_, fun w s hop hl => ?_⟩
  · rw [runWord_illegal hdec, rejectWord, unlessFaulted_live hl]
    rfl
  · rw [runWord_illegal hdec, rejectWord, unlessFaulted_faulted hf]
  · exact ⟨aField w, immField w, decode_of_fields hop ⟨rfl, rfl⟩, wrcfg_faults_index _ hl⟩

/-! ### SETFRAME (R101) -/

/-- Values written into configuration registers, one after another. -/
def writeConfigs : List (RegName × Half) → State → State
  | [], s => s
  | (r, val) :: ps, s => writeConfigs ps (writeConfig r val s)

/-- The WRCFGs that write values into registers, in order. -/
def wrcfgs (ps : List (RegName × Half)) : List Instr := ps.map fun p => .wrcfg (registerIndex p.1) p.2

/-- WRCFGs of registers the host may write complete: none records a fault or changes the phase (R112). -/
theorem runCommands_wrcfgs {ps : List (RegName × Half)} (hl : Live s) (hc : s.cphase ≠ .active)
    (hw : ∀ p ∈ ps, hostMayWrite p.1 = true) : runCommands (wrcfgs ps) s = .next (writeConfigs ps s) := by
  induction ps generalizing s with
  | nil => rfl
  | cons p ps ih =>
    obtain ⟨hp, hps⟩ := List.forall_mem_cons.1 hw
    have hlive : Live (writeConfig p.1 p.2 s) := by simpa [Live, State.faulted] using hl
    have hphase : (writeConfig p.1 p.2 s).cphase ≠ .active := by simpa using hc
    simp only [wrcfgs, List.map_cons, runCommands, exec_wrcfg_next p.2 hl hp hc]
    exact ih hlive hphase hps

/-- They write the registers named and nothing else (R23, R112). -/
theorem untouched_writeConfigs (ps : List (RegName × Half)) (s : State) :
    Untouched (ps.map Prod.fst) [] s (writeConfigs ps s) := by
  induction ps generalizing s with
  | nil => exact untouched_refl s
  | cons p ps ih =>
    exact untouched_trans (untouched_mono (untouched_writeConfig p.1 p.2 s) (by simp) (by simp))
      (untouched_mono (ih _) (by simp) (by simp))

theorem toNat_of_fitsVal {n : Nat} (h : fitsVal n = true) : (BitVec.ofNat 16 n).toNat = n :=
  (BitVec.toNat_ofNat n 16).trans (Nat.mod_eq_of_lt (of_decide_eq_true h))

/-- The registers that SETFRAME writes, with its operands (R101). -/
def setFrameWrites (fmt w h pad : Nat) : List (RegName × Half) :=
  [(.srcFormat, BitVec.ofNat 16 fmt), (.srcWidth, BitVec.ofNat 16 w), (.srcHeight, BitVec.ofNat 16 h),
    (.srcPadding, BitVec.ofNat 16 pad)]

theorem expand_setFrame (fmt w h pad : Nat) :
    (AsmLine.setFrame fmt w h pad).expand = wrcfgs (setFrameWrites fmt w h pad) := rfl

/-- Settles O6: the four WRCFGs complete one after another, each writing its own register. -/
theorem setFrameWritesTheFourRegisters : Obligations.SetFrameWritesTheFourRegisters := by
  intro s fmt w h pad hwf hl hc
  simp only [AsmLine.wellFormed, Bool.and_eq_true] at hwf
  obtain ⟨⟨⟨hfmt, hw⟩, hh⟩, hpad⟩ := hwf
  refine ⟨writeConfigs (setFrameWrites fmt w h pad) s, ?_, toNat_of_fitsVal hfmt, toNat_of_fitsVal hw,
    toNat_of_fitsVal hh, toNat_of_fitsVal hpad,
    untouched_writeConfigs (setFrameWrites fmt w h pad) s⟩
  rw [expand_setFrame]
  exact runCommands_wrcfgs hl hc (by simp [setFrameWrites, hostMayWrite])

end Sys2Proof.Machine
end

section
/-! PROOFS. The fields of an RGB565 word, bit by bit (spec/30_encoding.md R98). -/

namespace Sys2Proof.Machine

/-- The mask of red keeps bits 7:3 of the high byte. -/
theorem getLsbD_redMask : ∀ n < 8, (0xF8#8).getLsbD n = decide (3 ≤ n) := by decide

/-- The mask of green keeps bits 10:5. -/
theorem getLsbD_greenMask : ∀ n < 16, (0x07E0#16).getLsbD n = decide (5 ≤ n ∧ n < 11) := by decide

/-- The mask of blue keeps bits 4:0 of the low byte. -/
theorem getLsbD_blueMask : ∀ n < 8, (0x1F#8).getLsbD n = decide (n < 5) := by decide

theorem rgb565_red (lo hi : Byte) : hi &&& 0xF8#8 = (hi ++ lo : Half).extractLsb' 11 5 ++ 0#3 := by
  apply BitVec.eq_of_getLsbD_eq
  intro n hn
  rw [BitVec.getLsbD_and, getLsbD_redMask n hn, BitVec.getLsbD_append]
  split
  · next h => simp [h]
  · next h =>
    rw [BitVec.getLsbD_extractLsb', getLsbD_halves]
    simp [show ¬ 11 + (n - 3) < 8 by omega, show 11 + (n - 3) - 8 = n by omega, show 3 ≤ n by omega,
      show n - 3 < 5 by omega]

theorem rgb565_green (p : Half) : ((p &&& 0x07E0#16) >>> 3).setWidth 8 = p.extractLsb' 5 6 ++ 0#2 := by
  apply BitVec.eq_of_getLsbD_eq
  intro n hn
  rw [BitVec.getLsbD_setWidth, BitVec.getLsbD_ushiftRight, BitVec.getLsbD_and, getLsbD_greenMask (3 + n) (by omega),
    BitVec.getLsbD_append]
  split
  · next h => simp [h, show ¬ 5 ≤ 3 + n by omega]
  · next h =>
    rw [BitVec.getLsbD_extractLsb']
    simp [show 5 + (n - 2) = 3 + n by omega, hn, show 5 ≤ 3 + n by omega, show 3 + n < 11 by omega,
      show n - 2 < 6 by omega]

theorem rgb565_blue (lo hi : Byte) : (lo &&& 0x1F#8) * 8#8 = (hi ++ lo : Half).extractLsb' 0 5 ++ 0#3 := by
  have hshift : (lo &&& 0x1F#8) * 8#8 = (lo &&& 0x1F#8) <<< 3 := (BitVec.shiftLeft_eq_mul_twoPow _ 3).symm
  rw [hshift]
  apply BitVec.eq_of_getLsbD_eq
  intro n hn
  rw [BitVec.getLsbD_shiftLeft, BitVec.getLsbD_and, BitVec.getLsbD_append]
  split
  · next h => simp [h]
  · next h =>
    rw [BitVec.getLsbD_extractLsb', getLsbD_halves, getLsbD_blueMask (n - 3) (by omega)]
    simp [show n - 3 < 5 by omega, hn, h, show n - 3 < 8 by omega]

/-- Settles O43: the masks and shifts move each field as a whole and bring zeros in below it. -/
theorem rgb565FieldsKeepZeroLowBits : Obligations.Rgb565FieldsKeepZeroLowBits := by
  intro lo hi p
  rw [rgb565Triplet, rgb565_red lo hi, rgb565Word, rgb565_green, rgb565_blue lo hi]

end Sys2Proof.Machine
end

section
/-! PROOFS. The port commands by their pseudocode: NOP, WRCFG and RDREG (spec/40_port_and_config.md R111 to R113). -/

namespace Sys2Proof.Machine

variable {s : State} {r : RegName} {reg : Byte}

/-! ### NOP (R111) -/

theorem encode_nop : encode .nop = 0x00000000#32 := by decide

/-- Settles O11: NOP has one word, and the words with its opcode byte and a bit set below it are in R94's list. -/
theorem nopHasNoEffect : Obligations.NopHasNoEffect := by
  refine ⟨fun _ => rfl, fun w => ?_, fun w hop hlow => ?_⟩
  · rw [decode_eq_ok_iff, encode_nop]
  · exact illegal_iff.2 (.inr (.inl ⟨by simp [hop], hlow⟩))

/-! ### RDREG (R113) -/

theorem readIndex_registerIndex (r : RegName) (s : State) : readIndex (registerIndex r) s = regValue r s := by
  rw [readIndex, regOfIndex_registerIndex]

theorem readIndex_undefined (h : 0x0C ≤ reg.toNat) (s : State) : readIndex reg s = 0#32 := by
  rw [readIndex, regOfIndex_eq_none.2 h]

/-- Settles O12: the response is what the index reads. -/
theorem rdregRespondsTheRegister : Obligations.RdregRespondsTheRegister := by
  refine fun s reg => ⟨readIndex reg s, rfl, fun r hr => ?_, fun hundef => readIndex_undefined hundef s⟩
  rw [← hr, readIndex_registerIndex]

/-! ### WRCFG (R112) -/

theorem exec_wrcfg_faulted (hf : s.faulted = true) (reg : Byte) (val : Half) : exec (.wrcfg reg val) s = .next s :=
  unlessFaulted_faulted hf

/-- The indices 0x01 .. 0x04 are those of the registers the host may write (R23). -/
theorem exists_hostMayWrite_of_index (h1 : 1 ≤ reg.toNat) (h4 : reg.toNat ≤ 4) :
    ∃ r, registerIndex r = reg ∧ hostMayWrite r = true := by
  cases hr : regOfIndex reg with
  | none =>
    have hundef := regOfIndex_eq_none.1 hr
    omega
  | some r =>
    obtain rfl := regOfIndex_eq_some.1 hr
    exact ⟨r, rfl, hostMayWrite_iff.2 ⟨h1, h4⟩⟩

/-- In C_ACTIVE the index does not matter: each way through WRCFG raises the one fault (R112). -/
theorem wrcfg_faults_active (reg : Byte) (val : Half) (hl : Live s) (hc : s.cphase = .active) :
    Faults (.wrcfg reg val) s .contractViolation := by
  simp only [Faults, exec, execWrcfg, unlessFaulted_live hl, if_pos hc, ite_self]
  cases regOfIndex reg <;> rfl

theorem regValue_writeConfig_same (hw : hostMayWrite r = true) (val : Half) (s : State) :
    regValue r (writeConfig r val s) = val.setWidth 32 := by
  cases r with
  | srcFormat | srcWidth | srcHeight | srcPadding => rfl
  | status | nextRow | stgRemaining | dstUsed | dstCap | dstFormat | dstWidth | dstHeight => cases hw

/-- Settles O13: in order, the fault state ignores it, the index and the phase fault, and the rest writes its register. -/
theorem wrcfgWritesOneConfigurationRegister : Obligations.WrcfgWritesOneConfigurationRegister := by
  refine fun s reg val => ⟨fun hf => exec_wrcfg_faulted hf reg val, fun hl hreg => wrcfg_faults_index val hl hreg,
    fun hl hc => wrcfg_faults_active reg val hl hc, fun hl h1 h4 hc => ?_⟩
  obtain ⟨r, rfl, hw⟩ := exists_hostMayWrite_of_index h1 h4
  exact ⟨writeConfig r val s, r, exec_wrcfg_next val hl hw hc, rfl, regValue_writeConfig_same hw val s,
    untouched_writeConfig r val s⟩

end Sys2Proof.Machine
end

section
/-! PROOFS. The converter's phases and the faults of its commands, in the order tested
(spec/41_converter_control.md R120 to R124, spec/60_exceptions.md R208), and what CONV_START makes of a state ready for a
frame (R121). -/

namespace Sys2Proof.Machine

variable {s t : State} {f : Format} {i : Instr} {x y : Nat}

/-! ### CONV_START, test by test (R121) -/

theorem convStart_faults_active (hl : Live s) (hc : s.cphase = .active) : Faults .convStart s .contractViolation := by
  simp only [Faults, exec, execConvStart, unlessFaulted_live hl, if_pos hc]
  rfl

theorem convStart_faults_unsupported (hl : Live s) (hc : s.cphase ≠ .active) (hf : formatOfTag s.srcFormat = none) :
    Faults .convStart s .unsupportedFormat := by
  simp only [Faults, exec, execConvStart, unlessFaulted_live hl, if_neg hc, hf]
  rfl

/-- CONV_START of a supported format raises the fault of its dimensions or of PLANE's capacity (R121 to R123). -/
theorem convStart_faults_frame {c : Cause} (hl : Live s) (hc : s.cphase ≠ .active)
    (hf : formatOfTag s.srcFormat = some f) (hfault : frameFault f s = some c) : Faults .convStart s c := by
  simp only [Faults, exec, execConvStart, unlessFaulted_live hl, if_neg hc, hf, hfault]
  rfl

/-- A state ready for a frame passes every test (R121, R248). -/
theorem exec_convStart_ready (hr : FrameReady f s) : exec .convStart s = startFrame f s := by
  have hfault : frameFault f s = none := frameFault_eq_none.2 ⟨hr.dims, hr.capacity⟩
  simp only [exec, execConvStart, unlessFaulted_live hr.live, if_neg hr.phase, hr.tag, hfault]

/-- The tags 1 to 8 are the supported ones (R96). -/
theorem exists_format_of_tag {tag : Half} (h : 1 ≤ tag.toNat ∧ tag.toNat ≤ 8) : ∃ f, formatOfTag tag = some f :=
  Option.ne_none_iff_exists'.1 fun hnone => formatOfTag_eq_none.1 hnone h

/-- Settles O32: each test is reached when those before it pass, and what stands after it is not looked at. -/
theorem convStartFaultsInOrder : Obligations.ConvStartFaultsInOrder := by
  intro s hl tag w h supported badDims
  have hdims : ∀ f, formatOfTag s.srcFormat = some f → (¬DimensionsFit f w h ↔ badDims) := fun f hf => by
    rw [not_dimensionsFit_iff, ← formatOfTag_eq_some.1 hf]
  refine ⟨convStart_faults_active hl, fun hc hun => convStart_faults_unsupported hl hc (formatOfTag_eq_none.2 hun),
    fun hc hsup hbad => ?_, fun hc hsup hgood hsemi hcap => ?_⟩
  · obtain ⟨f, hf⟩ := exists_format_of_tag hsup
    exact convStart_faults_frame hl hc hf (frameFault_of_dims ((hdims f hf).2 hbad))
  · obtain ⟨f, hf⟩ := exists_format_of_tag hsup
    have hfit : DimensionsFit f w h := not_not.1 fun hn => hgood ((hdims f hf).1 hn)
    have hs : semiPlanar f = true := semiPlanar_iff.2 (formatOfTag_eq_some.1 hf ▸ hsemi)
    exact convStart_faults_frame hl hc hf (frameFault_of_capacity hfit hs hcap)

/-- Settles O33: no format accepts a zero width or height. -/
theorem zeroDimensionsFault : Obligations.ZeroDimensionsFault := by
  intro s hl hc ⟨f, hf⟩ hzero
  have hzero' : s.srcWidth.toNat = 0 ∨ s.srcHeight.toNat = 0 :=
    hzero.imp (congrArg BitVec.toNat) (congrArg BitVec.toNat)
  have hbad : ¬DimensionsFit f s.srcWidth.toNat s.srcHeight.toNat := fun hd =>
    hzero'.elim hd.width.ne' hd.height.ne'
  exact convStart_faults_frame hl hc hf (frameFault_of_dims hbad)

/-! ### Phases (R120) -/

theorem convLine_faults_inactive (hl : Live s) (hc : s.cphase ≠ .active) : Faults .convLine s .contractViolation := by
  simp only [Faults, exec, execConvLine, unlessFaulted_live hl, if_neg hc]
  rfl

/-- Only the two converter commands change the converter's phase (R120). -/
theorem effect_cphase (he : Effect i s t) (hstart : i ≠ .convStart) (hline : i ≠ .convLine) : t.cphase = s.cphase := by
  cases i with
  | nop => obtain rfl : t = s := he; rfl
  | rdreg reg => obtain rfl : t = _ := he; rfl
  | wrcfg reg val =>
    obtain ⟨r, -, -, -, rfl⟩ := he
    exact writeConfig_cphase r val s
  | convStart => exact absurd rfl hstart
  | convLine => exact absurd rfl hline
  | sinkInit => obtain ⟨-, rfl⟩ := he; rfl
  | push byte => obtain ⟨-, -, -, ⟨-, rfl⟩ | ⟨-, -, bs, -, rfl⟩⟩ := he <;> rfl
  | sinkFinal => obtain ⟨-, -, -, bs, -, rfl⟩ := he; rfl

theorem phaseAfterRow_of_lt {h : Nat} (hy : y < h) : phaseAfterRow y h = if y + 1 < h then .active else .done := by
  unfold phaseAfterRow
  by_cases hlast : y + 1 = h
  · rw [if_pos hlast, if_neg (by omega)]
  · rw [if_neg hlast, if_pos (by omega)]

/-- Settles O31: a command out of its phase faults; a command that leaves no fault had its effect, and only those of
CONV_START and CONV_LINE write the phase. -/
theorem converterPhasesChangeAsListed : Obligations.ConverterPhasesChangeAsListed := by
  refine ⟨fun s hl hc => convStart_faults_active hl hc, fun s hl hc => convLine_faults_inactive hl hc,
    fun s reg val hl hc => wrcfg_faults_active reg val hl hc, fun i s t _ h hlive => ?_⟩
  have he := exec_effect h hlive
  cases i with
  | convStart => obtain ⟨-, f, -, -, ⟨-, rfl⟩ | ⟨-, ts, -, rfl⟩⟩ := he <;> rfl
  | convLine =>
    obtain ⟨-, f, ts, -, -, rfl⟩ := he
    exact fun hrow => phaseAfterRow_of_lt hrow
  | nop | wrcfg | rdreg | sinkInit | push | sinkFinal => exact effect_cphase he (by simp) (by simp)

/-! ### A frame begins (R121) -/

theorem startFrame_packed (hs : semiPlanar f = false) (s : State) : startFrame f s = .next (beginFrame s) := by
  simp [startFrame, hs]

theorem startFrame_semiPlanar (hs : semiPlanar f = true) {ts : List Triplet}
    (hts : frameTriplets f s.src s.srcWidth.toNat s.srcHeight.toNat = some ts) :
    startFrame f s = .next (beginFrame { s with plane := storeBytes s.plane 0 (rowBytes ts) }) := by
  simp [startFrame, hs, hts]

/-- A provided semi-planar frame can be converted whole (R66, R121). -/
theorem frameTriplets_of_ready (hr : FrameReady f s) (hs : semiPlanar f = true) :
    ∃ ts, frameTriplets f s.src s.srcWidth.toNat s.srcHeight.toNat = some ts :=
  frameTriplets_of_isSome fun _ _ hx hy => semiPlanarPixel_isSome hs hr.dims hr.provided hx hy

/-- Settles O34: a packed format's CONV_START reads and writes no memory. -/
theorem convStartBeginsAPackedFrame : Obligations.ConvStartBeginsAPackedFrame := by
  intro s f hr hs
  exact ⟨beginFrame s, (exec_convStart_ready hr).trans (startFrame_packed hs s), rfl, rfl, rfl,
    (not_faulted_iff s).1 hr.live, untouched_beginFrame s⟩

end Sys2Proof.Machine
end

section
/-! PROOFS. CONV_LINE delivers the row NEXT_ROW (spec/41_converter_control.md R124, R125), and a whole frame delivers its
rows in order (R120, R126). -/

namespace Sys2Proof.Machine

variable {s t : State} {f : Format} {ts : List Triplet} {k x y : Nat}

/-! ### One row -/

/-- Pixel `x` of a delivered scanline stands in LINE at `3 * x` (R69, R124). -/
theorem tripletAt_deliverRow (hts : scanline f s y = some ts) (hx : x < s.srcWidth.toNat) :
    ∃ p, linePixel f s x y = some p ∧ TripletAt (deliverRow ts s).line (3 * x) p := by
  have hlen : x < ts.length := scanline_length hts ▸ hx
  have hp : ts[x]? = some ts[x] := List.getElem?_eq_getElem hlen
  exact ⟨ts[x], (scanline_get hts hx).trans hp, tripletAt_storeRow hp⟩

theorem peek_deliverRow_line_above {a : Nat} (ha : 3 * ts.length ≤ a) :
    peek (deliverRow ts s) .line a = peek s .line a :=
  readByte_storeBytes_outside (by rw [rowBytes_length]; omega)

/-- The row to come of a frame in progress can be delivered: a semi-planar one from PLANE, another one from the SRC that
the host has provided (R124, R125). -/
theorem scanline_of_frame (hf : FrameInProgress f s) (hp : semiPlanar f = false →
      HeldBelow s.src (srcExtent f s.srcWidth.toNat s.srcHeight.toNat s.srcPadding.toNat)) :
    ∃ ts, scanline f s s.nextRow.toNat = some ts := by
  cases hs : semiPlanar f with
  | true => exact scanline_of_semiPlanar hf hs
  | false => exact scanline_of_isSome fun x hx => linePixel_isSome hs hf.dims (hp hs) hx hf.row

/-- Settles O36: the row's scanline can be made, and delivering it has the listed effects. -/
theorem convLineDeliversTheNextRow : Obligations.ConvLineDeliversTheNextRow := by
  intro s f hinv hl hc hf hprovided
  have hframe := frameInProgress_of_tag hinv hc hf
  obtain ⟨ts, hts⟩ := scanline_of_frame hframe hprovided
  exact ⟨deliverRow ts s, (exec_convLine_eq_next hl hc hf).2 ⟨ts, hts, rfl⟩, nextRow_succ hframe.row, rfl, rfl,
    (not_faulted_iff s).1 hl, untouched_deliverRow ts s, fun x hx => tripletAt_deliverRow hts hx,
    fun a ha => peek_deliverRow_line_above (scanline_length hts ▸ ha)⟩

/-! ### A whole frame -/

/-- `t` is in the frame of format `f` that was begun from `s`, and `k` of its rows have been delivered: every pixel still
reads as the frame in the SRC of `s` has it, and LINE holds the row delivered last (R120, R126). -/
structure RowsDelivered (f : Format) (s : State) (k : Nat) (t : State) : Prop where
  live : Live t
  tag : formatOfTag t.srcFormat = some f
  width : t.srcWidth = s.srcWidth
  height : t.srcHeight = s.srcHeight
  src : t.src = s.src
  row : t.nextRow.toNat = k
  phase : t.cphase = if k = s.srcHeight.toNat then .done else .active
  pixels : ∀ x y, x < s.srcWidth.toNat → y < s.srcHeight.toNat →
    ∃ p, sourcePixel f s x y = some p ∧ linePixel f t x y = some p
  line : ∀ x, x < s.srcWidth.toNat → 0 < k →
    ∃ p, sourcePixel f s x (k - 1) = some p ∧ TripletAt t.line (3 * x) p

/-- Beginning a frame changes nothing that a pixel is read from (R121). -/
theorem linePixel_beginFrame (f : Format) (s : State) (x y : Nat) :
    linePixel f (beginFrame s) x y = linePixel f s x y := by
  cases f <;> rfl

/-- A frame just begun, whose pixels read as those of SRC, has no row delivered (R121). -/
theorem rowsDelivered_beginFrame (hr : FrameReady f s) (m : Memory)
    (hp : ∀ x y, x < s.srcWidth.toNat → y < s.srcHeight.toNat →
      ∃ p, sourcePixel f s x y = some p ∧ linePixel f { s with plane := m } x y = some p) :
    RowsDelivered f s 0 (beginFrame { s with plane := m }) where
  live := hr.live
  tag := hr.tag
  width := rfl
  height := rfl
  src := rfl
  row := rfl
  phase := (if_neg hr.dims.height.ne).symm
  pixels x y hx hy := by
    rw [linePixel_beginFrame]
    exact hp x y hx hy
  line _ _ hk := absurd hk (Nat.lt_irrefl 0)

/-- In a converted PLANE every pixel stands as the colour function gives it from SRC (R69, R121, R165). -/
theorem planePixel_storeFrame (hts : frameTriplets f s.src s.srcWidth.toNat s.srcHeight.toNat = some ts) (m : Memory)
    (hx : x < s.srcWidth.toNat) (hy : y < s.srcHeight.toNat) :
    ∃ p, semiPlanarPixel f s.src s.srcWidth.toNat s.srcHeight.toNat x y = some p ∧
      planePixel (storeBytes m 0 (rowBytes ts)) s.srcWidth.toNat x y = some p := by
  have hlen : y * s.srcWidth.toNat + x < ts.length := frameTriplets_length hts ▸ lumaAddr_lt hx hy
  have hp : ts[y * s.srcWidth.toNat + x]? = some ts[y * s.srcWidth.toNat + x] := List.getElem?_eq_getElem hlen
  exact ⟨_, (frameTriplets_get hts hx hy).trans hp, planePixel_eq_some.2 (tripletAt_storeRow hp)⟩

/-- A scanline of a semi-planar format is read from PLANE (R125, R165). -/
theorem linePixel_semiPlanar (hs : semiPlanar f = true) (s : State) (x y : Nat) :
    linePixel f s x y = planePixel s.plane s.srcWidth.toNat x y := by
  cases f with
  | nv12 | nv16 | nv24 => rfl
  | yuyv | uyvy | rgb565 | rgb24 | bgr24 => exact nomatch hs

/-- From a state ready for a frame CONV_START completes, with every pixel of the frame there to be delivered (R121). -/
theorem convStart_rowsDelivered (hr : FrameReady f s) : ∃ t, exec .convStart s = .next t ∧ RowsDelivered f s 0 t := by
  rw [exec_convStart_ready hr]
  cases hs : semiPlanar f with
  | false =>
    refine ⟨_, startFrame_packed hs s, rowsDelivered_beginFrame hr s.plane fun x y hx hy => ?_⟩
    obtain ⟨p, hp⟩ := Option.isSome_iff_exists.1 (linePixel_isSome hs hr.dims hr.provided hx hy)
    exact ⟨p, by simpa [sourcePixel, hs] using hp, hp⟩
  | true =>
    obtain ⟨ts, hts⟩ := frameTriplets_of_ready hr hs
    refine ⟨_, startFrame_semiPlanar hs hts, rowsDelivered_beginFrame hr _ fun x y hx hy => ?_⟩
    rw [sourcePixel, if_pos hs, linePixel_semiPlanar hs]
    exact planePixel_storeFrame hts s.plane hx hy

/-- Delivering a row writes nothing that a pixel is read from (R30, R124). -/
theorem linePixel_deliverRow (f : Format) (ts : List Triplet) (s : State) (x y : Nat) :
    linePixel f (deliverRow ts s) x y = linePixel f s x y := by
  cases f <;> rfl

/-- The next CONV_LINE of a frame delivers one row more (R124). -/
theorem convLine_rowsDelivered (h : RowsDelivered f s k t) (hk : k < s.srcHeight.toNat) :
    ∃ u, exec .convLine t = .next u ∧ RowsDelivered f s (k + 1) u := by
  have hc : t.cphase = .active := h.phase.trans (if_neg hk.ne)
  have hrow : t.nextRow.toNat < t.srcHeight.toNat := by rwa [h.row, h.height]
  obtain ⟨ts, hts⟩ : ∃ ts, scanline f t t.nextRow.toNat = some ts := scanline_of_isSome fun x hx => by
    obtain ⟨p, -, hp⟩ := h.pixels x k (h.width ▸ hx) hk
    rw [h.row, hp]
    rfl
  refine ⟨deliverRow ts t, (exec_convLine_eq_next h.live hc h.tag).2 ⟨ts, hts, rfl⟩, ?_⟩
  exact {
    live := h.live
    tag := h.tag
    width := h.width
    height := h.height
    src := h.src
    row := (nextRow_succ hrow).trans (by rw [h.row])
    phase := by rw [deliverRow_cphase, phaseAfterRow, h.row, h.height]
    pixels := fun x y hx hy => by
      rw [linePixel_deliverRow]
      exact h.pixels x y hx hy
    line := fun x hx _ => by
      obtain ⟨p, hsource, hpixel⟩ := h.pixels x k hx hk
      obtain ⟨q, hq, hline⟩ := tripletAt_deliverRow hts (h.width ▸ hx)
      rw [h.row] at hq
      obtain rfl : p = q := Option.some.inj (hpixel.symm.trans hq)
      exact ⟨p, hsource, hline⟩ }

/-- `k` CONV_LINEs after CONV_START complete and deliver `k` rows, for every `k` up to the height (R120, R124). -/
theorem runCommands_rowsDelivered (hr : FrameReady f s) (hk : k ≤ s.srcHeight.toNat) :
    ∃ t, runCommands (.convStart :: List.replicate k .convLine) s = .next t ∧ RowsDelivered f s k t := by
  induction k with
  | zero =>
    obtain ⟨t, hexec, ht⟩ := convStart_rowsDelivered hr
    exact ⟨t, by simp [runCommands, hexec], ht⟩
  | succ k ih =>
    obtain ⟨t, hrun, ht⟩ := ih (by omega)
    obtain ⟨u, hexec, hu⟩ := convLine_rowsDelivered ht hk
    refine ⟨u, ?_, hu⟩
    rw [List.replicate_succ', ← List.cons_append, runCommands_append, hrun]
    simp [runCommands, hexec]

/-- Settles O38: by induction over the rows, with every pixel kept readable while the frame runs. -/
theorem frameDeliversItsRowsInOrder : Obligations.FrameDeliversItsRowsInOrder := by
  intro s f k hr hk
  obtain ⟨t, hrun, ht⟩ := runCommands_rowsDelivered hr hk
  exact ⟨t, hrun, ht.live, ht.row, ht.phase, ht.src, ht.line⟩

end Sys2Proof.Machine
end

section
/-! PROOFS. The engine reads the delivered scanline until the next CONV_LINE (spec/41_converter_control.md R126,
spec/70_reset_and_hazards.md R247). -/

namespace Sys2Proof.Machine

variable {s t : State} {i : Instr} {sp : Space}

/-- No command, RDREG included, changes a byte of a space outside its list (R30). -/
theorem exec_keeps_byte (h : exec i s = .next t) (hsp : sp ∉ spacesWritten i) (a : Nat) :
    peek t sp a = peek s sp a := by
  by_cases hi : ∃ x, i = .rdreg x
  · obtain ⟨x, rfl⟩ := hi
    obtain rfl := Host.Outcome.next.inj h
    cases sp <;> rfl
  · exact (commandsWriteOnlyWhatTheyOwn i s t h fun x hx => hi ⟨x, hx⟩).bytes sp hsp a

/-- Nor does a run of such commands. -/
theorem runCommands_keeps_byte {cmds : List Instr} (h : runCommands cmds s = .next t)
    (hsp : ∀ i ∈ cmds, sp ∉ spacesWritten i) (a : Nat) : peek t sp a = peek s sp a := by
  induction cmds generalizing s with
  | nil => rw [Host.Outcome.next.inj h]
  | cons i rest ih =>
    obtain ⟨hi, hrest⟩ := List.forall_mem_cons.1 hsp
    simp only [runCommands] at h
    split at h
    · next u hu => exact (ih h hrest).trans (exec_keeps_byte hu hi a)
    · cases h
    · cases h

/-- CONV_LINE alone writes LINE (R30). -/
theorem line_not_mem_spacesWritten (hi : i ≠ .convLine) : Space.line ∉ spacesWritten i := by
  cases i <;> simp_all [spacesWritten]

/-- The engine's look is a function of the byte that stands in LINE (R63, R247). -/
theorem engineReadLine_congr {a : Nat} (h : peek t .line a = peek s .line a) :
    engineReadLine t a = engineReadLine s a := by
  have hbyte : readByte t.line a = readByte s.line a := h
  simp only [engineReadLine, lookAt, hbyte]

/-- Settles O59: the delivered row fills LINE, and no other command writes there. -/
theorem engineReadsTheDeliveredScanline : Obligations.EngineReadsTheDeliveredScanline := by
  intro s t h hlive
  obtain ⟨-, f, ts, -, hts, rfl⟩ := exec_effect h hlive
  refine ⟨fun i hi => ?_, fun cmds u hcmds hrun i => engineReadLine_congr ?_⟩
  · rw [← scanline_length hts] at hi
    obtain ⟨b, hb⟩ := Option.isSome_iff_exists.1 (heldBelow_storeRow s.line ts i hi)
    exact ⟨b, lookAt_eq_ok.2 hb, hb⟩
  · exact runCommands_keeps_byte hrun (fun c hc => line_not_mem_spacesWritten (hcmds c hc)) i

end Sys2Proof.Machine
end

section
/-! PROOFS. The packed path: its colour function `yuv_full` (spec/42_formats_packed.md R141, R142) and the bytes that the
delivered rows of the five formats read row by row are made of (R143 to R147). -/

namespace Sys2Proof.Machine

variable {s t : State} {f : Format} {p : Triplet} {x : Nat}

/-! ### The clamped shift -/

theorem clamp8_of_nonpos {v : Int} (hv : v ≤ 0) : clamp8 v = 0#8 := by
  have hzero : ((clamp8 v).toNat : Int) = 0 := by
    rw [clamp8_toNat]
    omega
  exact BitVec.eq_of_toNat_eq (by exact_mod_cast hzero)

/-- Settles O42: floor and truncation are the same number from 0 on, and both are clamped to 0 below it. -/
theorem floorAndTruncationClampAlike : Obligations.FloorAndTruncationClampAlike := by
  intro v
  show clamp8 (v / 256) = clamp8 (v.tdiv 256)
  rcases le_or_gt 0 v with hv | hv
  · rw [Int.tdiv_eq_ediv_of_nonneg hv]
  · have hfloor : v / 256 ≤ 0 := by omega
    have htrunc : 0 ≤ -v.tdiv 256 := Int.neg_tdiv v 256 ▸ Int.tdiv_nonneg (by omega) (by decide)
    rw [clamp8_of_nonpos hfloor, clamp8_of_nonpos (by omega)]

/-- A byte shifted left by 8 comes back whole: nothing is added before the shift (R141). -/
theorem clamp8_shiftRight_byte (b : Byte) : clamp8 (shiftRight (byteInt b * 2 ^ 8) 8) = b := by
  have hbyte : ((clamp8 (shiftRight (byteInt b * 2 ^ 8) 8)).toNat : Int) = b.toNat := by
    rw [clamp8_shiftRight, byteInt]
    omega
  exact BitVec.eq_of_toNat_eq (by exact_mod_cast hbyte)

/-! ### The colour function (R141) -/

theorem yuvFull_toNat (y8 u8 v8 : Byte) :
    ((yuvFull y8 u8 v8).r.toNat : Int) = max 0 (min 255 (fullR y8 v8 / 256)) ∧
      ((yuvFull y8 u8 v8).g.toNat : Int) = max 0 (min 255 (fullG y8 u8 v8 / 256)) ∧
      ((yuvFull y8 u8 v8).b.toNat : Int) = max 0 (min 255 (fullB y8 u8 / 256)) :=
  ⟨clamp8_shiftRight _, clamp8_shiftRight _, clamp8_shiftRight _⟩

theorem fullR_eq (y8 v8 : Byte) : fullR y8 v8 = 256 * (y8.toNat : Int) + 359 * ((v8.toNat : Int) - 128) := by
  simp only [fullR, byteInt]
  omega

theorem fullG_eq (y8 u8 v8 : Byte) :
    fullG y8 u8 v8 = 256 * (y8.toNat : Int) - 88 * ((u8.toNat : Int) - 128) - 183 * ((v8.toNat : Int) - 128) := by
  simp only [fullG, byteInt]
  omega

theorem fullB_eq (y8 u8 : Byte) : fullB y8 u8 = 256 * (y8.toNat : Int) + 454 * ((u8.toNat : Int) - 128) := by
  simp only [fullB, byteInt]
  omega

/-- Without chroma every channel is the luma. -/
theorem yuvFull_grey (y8 : Byte) : yuvFull y8 128#8 128#8 = ⟨y8, y8, y8⟩ := by
  have hr : fullR y8 128#8 = byteInt y8 * 2 ^ 8 := by simp [fullR, byteInt]
  have hg : fullG y8 128#8 128#8 = byteInt y8 * 2 ^ 8 := by simp [fullG, byteInt]
  have hb : fullB y8 128#8 = byteInt y8 * 2 ^ 8 := by simp [fullB, byteInt]
  simp only [yuvFull, hr, hg, hb, clamp8_shiftRight_byte]

/-- Settles O39: each channel is the clamped shift of a linear form in three bytes. -/
theorem packedColourFunction : Obligations.PackedColourFunction := by
  refine ⟨fun y8 u8 v8 => ?_, by decide, by decide, by decide⟩
  obtain ⟨hr, hg, hb⟩ := yuvFull_toNat y8 u8 v8
  have hy := y8.isLt
  have hu := u8.isLt
  have hv := v8.isLt
  rw [fullR_eq] at hr ⊢
  rw [fullG_eq] at hg ⊢
  rw [fullB_eq] at hb ⊢
  exact ⟨hr, hg, hb, by omega, by omega, by omega, yuvFull_grey y8⟩

/-! ### The pixels of a delivered row -/

/-- Every pixel of the row NEXT_ROW stands in LINE after CONV_LINE (R124, R125). -/
theorem tripletAt_convLine (hl : Live s) (hc : s.cphase = .active) (h : exec .convLine s = .next t)
    (hf : formatOfTag s.srcFormat = some f) (hx : x < s.srcWidth.toNat) :
    ∃ p, linePixel f s x s.nextRow.toNat = some p ∧ TripletAt t.line (3 * x) p := by
  obtain ⟨ts, hts, rfl⟩ := (exec_convLine_eq_next hl hc hf).1 h
  exact tripletAt_deliverRow hts hx

/-- The row's address with the bytes per pixel in front, as R143 to R147 print it. -/
theorem rowBase_eq (f : Format) (w pad y : Nat) : rowBase f w pad y = y * (bytesPerPixel f * w + pad) := by
  rw [rowBase, stride, Nat.mul_comm w]

/-- Settles O44: the pixel delivered is the one made of its group's bytes. -/
theorem packedYuvRowsReadTheirGroups : Obligations.PackedYuvRowsReadTheirGroups := by
  intro s t hl hc h w base
  refine ⟨fun htag x hx => ?_, fun htag x hx => ?_⟩
  · obtain ⟨p, hp, hline⟩ := tripletAt_convLine (f := .yuyv) hl hc h (congrArg formatOfTag htag) hx
    rw [linePixel, yuyvPixel, groupBase, rowBase_eq] at hp
    obtain ⟨y8, u8, v8, hy, hu, hv, rfl⟩ := withThreeBytes_eq_some.1 hp
    exact ⟨y8, u8, v8, hy, hu, hv, hline⟩
  · obtain ⟨p, hp, hline⟩ := tripletAt_convLine (f := .uyvy) hl hc h (congrArg formatOfTag htag) hx
    rw [linePixel, uyvyPixel, groupBase, rowBase_eq] at hp
    obtain ⟨y8, u8, v8, hy, hu, hv, rfl⟩ := withThreeBytes_eq_some.1 hp
    exact ⟨y8, u8, v8, hy, hu, hv, hline⟩

/-- A triplet copied from three bytes stands in LINE as those bytes. -/
theorem line_eq_of_copied {m n : Memory} {a b c d : Nat} (hp : withThreeBytes m a b c Triplet.mk = some p)
    (hline : TripletAt n d p) :
    readByte n d = readByte m a ∧ readByte n (d + 1) = readByte m b ∧ readByte n (d + 2) = readByte m c := by
  obtain ⟨r, g, b, hr, hg, hb, rfl⟩ := withThreeBytes_eq_some.1 hp
  obtain ⟨hr', hg', hb'⟩ := hline
  exact ⟨hr'.trans hr.symm, hg'.trans hg.symm, hb'.trans hb.symm⟩

/-- Memories that agree on every triplet of a row agree on every byte of it. -/
theorem readByte_eq_of_triplets {m n : Memory} {a w i : Nat} (hi : i < 3 * w)
    (h : ∀ x, x < w → readByte n (3 * x) = readByte m (a + 3 * x) ∧
      readByte n (3 * x + 1) = readByte m (a + 3 * x + 1) ∧ readByte n (3 * x + 2) = readByte m (a + 3 * x + 2)) :
    readByte n i = readByte m (a + i) := by
  obtain ⟨h0, h1, h2⟩ := h (i / 3) (by omega)
  rw [← Nat.div_add_mod i 3, ← Nat.add_assoc]
  have hmod : i % 3 < 3 := Nat.mod_lt _ (by decide)
  interval_cases i % 3
  · exact h0
  · exact h1
  · exact h2

/-- Settles O45: the pixel delivered is the one made of its word, or of its three bytes in the format's order. -/
theorem rgbRowsReadTheirPixels : Obligations.RgbRowsReadTheirPixels := by
  intro s t hl hc h w base
  refine ⟨fun htag x hx => ?_, fun htag i hi => readByte_eq_of_triplets hi fun x hx => ?_, fun htag x hx => ?_⟩
  · obtain ⟨p, hp, hline⟩ := tripletAt_convLine (f := .rgb565) hl hc h (congrArg formatOfTag htag) hx
    rw [linePixel, rgb565Pixel, rowBase_eq] at hp
    obtain ⟨lo, hi, hlo, hhi, rfl⟩ := withTwoBytes_eq_some.1 hp
    exact ⟨lo, hi, hlo, hhi, hline⟩
  · obtain ⟨p, hp, hline⟩ := tripletAt_convLine (f := .rgb24) hl hc h (congrArg formatOfTag htag) hx
    rw [linePixel, rgb24Pixel, rowBase_eq] at hp
    exact line_eq_of_copied hp hline
  · obtain ⟨p, hp, hline⟩ := tripletAt_convLine (f := .bgr24) hl hc h (congrArg formatOfTag htag) hx
    rw [linePixel, bgr24Pixel, rowBase_eq] at hp
    exact line_eq_of_copied hp hline

end Sys2Proof.Machine
end

section
/-! PROOFS. The semi-planar path: its colour function `yuv_limited` and how it differs from `yuv_full`
(spec/43_formats_semiplanar.md R161, R166), the frame that CONV_START converts into PLANE (R160, R162 to R164), and the
rows that CONV_LINE copies from there (R165). -/

namespace Sys2Proof.Machine

variable {f : Format} {ts : List Triplet} {p : Triplet}

/-! ### The colour function (R161) -/

theorem clamp8_of_ge_255 {v : Int} (hv : 255 ≤ v) : clamp8 v = 255#8 := by
  have hmax : ((clamp8 v).toNat : Int) = 255 := by
    rw [clamp8_toNat]
    omega
  exact BitVec.eq_of_toNat_eq (by exact_mod_cast hmax)

theorem yuvLimited_toNat (y8 u8 v8 : Byte) :
    ((yuvLimited y8 u8 v8).r.toNat : Int) = max 0 (min 255 (limitedR y8 v8 / 256)) ∧
      ((yuvLimited y8 u8 v8).g.toNat : Int) = max 0 (min 255 (limitedG y8 u8 v8 / 256)) ∧
      ((yuvLimited y8 u8 v8).b.toNat : Int) = max 0 (min 255 (limitedB y8 u8 / 256)) :=
  ⟨clamp8_shiftRight _, clamp8_shiftRight _, clamp8_shiftRight _⟩

theorem limited_ranges (y8 u8 v8 : Byte) :
    (-56992 ≤ limitedR y8 v8 ∧ limitedR y8 v8 ≤ 123293) ∧ (-43756 ≤ limitedG y8 u8 v8 ∧ limitedG y8 u8 v8 ≤ 110774) ∧
      (-70688 ≤ limitedB y8 u8 ∧ limitedB y8 u8 ≤ 136882) := by
  have hy := y8.isLt
  have hu := u8.isLt
  have hv := v8.isLt
  simp only [limitedR, limitedG, limitedB, byteInt]
  omega

/-- Without chroma the three channels are one number, the scaled and rounded luma above the footroom. -/
theorem yuvLimited_grey {y8 c : Byte} (hc : clamp8 ((298 * (byteInt y8 - 16) + 128) / 256) = c) :
    yuvLimited y8 128#8 128#8 = ⟨c, c, c⟩ := by
  have hr : limitedR y8 128#8 = 298 * (byteInt y8 - 16) + 128 := by simp [limitedR, byteInt]
  have hg : limitedG y8 128#8 128#8 = 298 * (byteInt y8 - 16) + 128 := by simp [limitedG, byteInt]
  have hb : limitedB y8 128#8 = 298 * (byteInt y8 - 16) + 128 := by simp [limitedB, byteInt]
  have hshift : clamp8 (shiftRight (298 * (byteInt y8 - 16) + 128) 8) = c := hc
  simp only [yuvLimited, hr, hg, hb, hshift]

theorem yuvLimited_black {y8 : Byte} (hy : y8.toNat ≤ 16) : yuvLimited y8 128#8 128#8 = ⟨0#8, 0#8, 0#8⟩ :=
  yuvLimited_grey (clamp8_of_nonpos (by rw [byteInt]; omega))

theorem yuvLimited_white {y8 : Byte} (hy : 235 ≤ y8.toNat) : yuvLimited y8 128#8 128#8 = ⟨255#8, 255#8, 255#8⟩ :=
  yuvLimited_grey (clamp8_of_ge_255 (by rw [byteInt]; omega))

/-- Settles O40: each channel is the clamped shift of a linear form in three bytes, the same form in all three when
chroma is neutral. -/
theorem semiPlanarColourFunction : Obligations.SemiPlanarColourFunction := by
  refine ⟨fun y8 u8 v8 => ?_, by decide, by decide, by decide, by decide⟩
  obtain ⟨hr, hg, hb⟩ := yuvLimited_toNat y8 u8 v8
  obtain ⟨rangeR, rangeG, rangeB⟩ := limited_ranges y8 u8 v8
  exact ⟨hr, hg, hb, rangeR, rangeG, rangeB, yuvLimited_black, yuvLimited_white⟩

/-- Settles O41: on grey `yuv_full` gives the luma itself, while `yuv_limited` takes the footroom off and
scales the rest. -/
theorem theTwoColourFunctionsDiffer : Obligations.TheTwoColourFunctionsDiffer :=
  ⟨yuvFull_grey _, yuvLimited_grey (by decide), yuvFull_grey _, yuvLimited_black (by decide), yuvFull_grey _,
    yuvLimited_white (by decide)⟩

/-! ### The converted frame (R160) -/

/-- A semi-planar pixel is made of its luma sample and of the chroma pair at its chroma address (R160). -/
theorem semiPlanarPixel_eq_some {m : Memory} {w h x y : Nat} :
    semiPlanarPixel f m w h x y = some p ↔ ∃ y8 u8 v8, readByte m (y * w + x) = some y8 ∧
      readByte m (chromaAddr f w h x y) = some u8 ∧ readByte m (chromaAddr f w h x y + 1) = some v8 ∧
      p = yuvLimited y8 u8 v8 :=
  withThreeBytes_eq_some

/-- A converted frame leaves PLANE above the frame as it was (R69, R121). -/
theorem readByte_storeFrame_above {m src : Memory} {w h a : Nat} (hts : frameTriplets f src w h = some ts)
    (ha : 3 * w * h ≤ a) : readByte (storeBytes m 0 (rowBytes ts)) a = readByte m a := by
  have hlen : (rowBytes ts).length = 3 * w * h := by rw [rowBytes_length, frameTriplets_length hts, Nat.mul_assoc]
  exact readByte_storeBytes_outside (by omega)

/-- Settles O35: the frame can be converted whole, and each pixel stands in PLANE as the colour function of its luma
sample and of the chroma pair at its format's address. -/
theorem convStartConvertsASemiPlanarFrame : Obligations.ConvStartConvertsASemiPlanarFrame := by
  intro s f hr hs w h
  obtain ⟨ts, hts⟩ := frameTriplets_of_ready hr hs
  have hexec := (exec_convStart_ready hr).trans (startFrame_semiPlanar hs hts)
  refine ⟨_, hexec, rfl, rfl, rfl, (not_faulted_iff s).1 hr.live, ?_, fun x y hx hy => ?_,
    fun a ha => readByte_storeFrame_above hts ha⟩
  · exact commandsWriteOnlyWhatTheyOwn .convStart s _ hexec (by simp)
  · intro ua
    have hua : chromaAddr f w h x y = ua := by
      cases f with
      | nv12 | nv16 | nv24 => exact Nat.add_assoc _ _ _
      | yuyv | uyvy | rgb565 | rgb24 | bgr24 => exact nomatch hs
    obtain ⟨p, hpixel, hplane⟩ := planePixel_storeFrame hts s.plane hx hy
    obtain ⟨y8, u8, v8, hy8, hu8, hv8, rfl⟩ := semiPlanarPixel_eq_some.1 hpixel
    exact ⟨y8, u8, v8, hy8, hua ▸ hu8, hua ▸ hv8, planePixel_eq_some.1 hplane⟩

/-! ### The delivered rows (R165) -/

/-- The tags 6 to 8 are the semi-planar formats (R96). -/
theorem exists_semiPlanar_of_tag {tag : Half} (hlow : 6 ≤ tag.toNat) (hhigh : tag.toNat ≤ 8) :
    ∃ f, formatOfTag tag = some f ∧ semiPlanar f = true := by
  obtain ⟨f, hf⟩ := exists_format_of_tag ⟨by omega, hhigh⟩
  exact ⟨f, hf, semiPlanar_iff.2 (formatOfTag_eq_some.1 hf ▸ hlow)⟩

/-- Settles O46: each pixel delivered is the triplet that stands in PLANE, where a row's triplets follow each other. -/
theorem semiPlanarRowsCopyPlane : Obligations.SemiPlanarRowsCopyPlane := by
  intro s t hl hc h hlow hhigh i hi
  obtain ⟨f, hf, hs⟩ := exists_semiPlanar_of_tag hlow hhigh
  refine readByte_eq_of_triplets hi fun x hx => ?_
  obtain ⟨p, hp, hline⟩ := tripletAt_convLine hl hc h hf hx
  have haddr : planeAddr s.srcWidth.toNat x s.nextRow.toNat = 3 * s.srcWidth.toNat * s.nextRow.toNat + 3 * x := by
    rw [planeAddr]
    ring
  rw [linePixel_semiPlanar hs, planePixel, haddr] at hp
  exact line_eq_of_copied hp hline

end Sys2Proof.Machine
end

section
/-! PROOFS. The sink's commands by their pseudocode: SINK_INIT, PUSH and SINK_FINAL, the append that the last two share,
and the phases of the sink (spec/44_sink.md R180 to R186). -/

namespace Sys2Proof.Machine

variable {s t : State} {i : Instr} {b : Byte} {bs : List Byte} {n a : Nat}

/-! ### SINK_INIT (R181) -/

theorem sinkInit_faults_open (hl : Live s) (ho : s.sphase = .opened) : Faults .sinkInit s .contractViolation := by
  simp only [Faults, exec, execSinkInit, unlessFaulted_live hl, if_pos ho]
  rfl

/-- SINK_INIT of a sink that is not open has its effect. -/
theorem exec_sinkInit_of_effect (hl : Live s) (he : Effect .sinkInit s t) : exec .sinkInit s = .next t := by
  obtain ⟨ho, rfl⟩ := he
  simp only [exec, execSinkInit, unlessFaulted_live hl, if_neg ho]

/-- Settles O51: in order, the fault state ignores it, the open sink faults, and the rest is bound and emptied. -/
theorem sinkInitBindsAndEmpties : Obligations.SinkInitBindsAndEmpties := by
  refine fun s => ⟨fun hf => unlessFaulted_faulted hf, sinkInit_faults_open, fun hl ho => ?_⟩
  have he : Effect .sinkInit s _ := ⟨ho, rfl⟩
  exact ⟨_, exec_sinkInit_of_effect hl he, rfl, rfl, rfl, rfl, rfl, rfl, rfl, (not_faulted_iff s).1 hl,
    untouched_mono (untouched_effect_sinkInit he) (by simp [regsWritten]) (by simp)⟩

/-! ### PUSH (R182) -/

theorem push_faults_closed (hl : Live s) (ho : s.sphase ≠ .opened) : Faults (.push b) s .contractViolation := by
  simp only [Faults, exec, execPush, unlessFaulted_live hl, if_neg ho]
  rfl

/-- A staging level that PUSH does not stop at (R32). -/
theorem level_possible (hlow : 1 ≤ s.stgRemaining.toNat) (hhigh : s.stgRemaining.toNat ≤ 4096) :
    ¬(s.stgRemaining.toNat = 0 ∨ Config.stgCapacity < s.stgRemaining.toNat) := by
  rw [Config.stgCapacity]
  omega

/-- The PUSH that would fill the block faults when the destination cannot take the block (R182, R184). -/
theorem push_faults_full (hl : Live s) (ho : s.sphase = .opened) (hr : s.stgRemaining.toNat = 1)
    (hfull : s.cfg.dstLimit.toNat < s.dstUsed.toNat + 4096) : Faults (.push b) s .encodeOOM := by
  have hfit : ¬appendFits Config.stgCapacity s = true := by simpa [appendFits_iff] using hfull
  have hlevel := level_possible (s := s) (by omega) (by omega)
  simp only [Faults, exec, execPush, unlessFaulted_live hl, if_pos ho, if_neg hlevel, if_pos hr, if_neg hfit]
  rfl

theorem exec_push_stages (hl : Live s) (ho : s.sphase = .opened) (hlow : 2 ≤ s.stgRemaining.toNat)
    (hhigh : s.stgRemaining.toNat ≤ 4096) : exec (.push b) s = .next (stageByte b s) := by
  have hlevel := level_possible (s := s) (by omega) hhigh
  have hnotLast : s.stgRemaining.toNat ≠ 1 := by omega
  simp only [exec, execPush, unlessFaulted_live hl, if_pos ho, if_neg hlevel, if_neg hnotLast]

theorem exec_push_drains (hl : Live s) (ho : s.sphase = .opened) (hr : s.stgRemaining.toNat = 1)
    (hfit : s.dstUsed.toNat + 4096 ≤ s.cfg.dstLimit.toNat) :
    exec (.push b) s = appendStaged Config.stgCapacity (stageByte b s) emptyStaging := by
  have hfits : appendFits Config.stgCapacity s = true := appendFits_iff.2 hfit
  have hlevel := level_possible (s := s) (by omega) (by omega)
  simp only [exec, execPush, unlessFaulted_live hl, if_pos ho, if_neg hlevel, if_pos hr, if_pos hfits]

/-- A PUSH that can have an effect has it. -/
theorem exec_push_of_effect (hl : Live s) (he : Effect (.push b) s t) : exec (.push b) s = .next t := by
  obtain ⟨ho, hlow, hhigh, ⟨hr, rfl⟩ | ⟨hr, hfit, bs, hbs, rfl⟩⟩ := he
  · exact exec_push_stages hl ho (by omega) hhigh
  · exact (exec_push_drains hl ho hr hfit).trans (appendStaged_eq_next.2 ⟨bs, hbs, rfl⟩)

/-- Settles O54: in order, the fault state ignores it, and the closed sink and the full destination fault. -/
theorem pushIsTurnedAwayUnstaged : Obligations.PushIsTurnedAwayUnstaged := fun _ _ =>
  ⟨fun hf => unlessFaulted_faulted hf, push_faults_closed, push_faults_full⟩

/-- The staged byte stands at its place and the others stay (R182). -/
theorem peek_stageByte (b : Byte) (s : State) (a : Nat) : peek (stageByte b s) .stg a =
    if a = 4096 - s.stgRemaining.toNat then some b else peek s .stg a := by
  by_cases ha : a = 4096 - s.stgRemaining.toNat
  · subst ha
    rw [if_pos rfl]
    exact readByte_storeBytes_inside (bs := [b]) (i := 0) (by simp)
  · rw [if_neg ha]
    exact readByte_storeBytes_outside (by rw [List.length_singleton, Config.stgCapacity]; omega)

/-- Settles O52: the byte is staged, and staging writes STG and its counter only. -/
theorem pushStagesItsByte : Obligations.PushStagesItsByte := by
  intro s b hl ho hlow hhigh
  exact ⟨stageByte b s, exec_push_stages hl ho hlow hhigh, remaining_pred (by omega),
    (peek_stageByte b s _).trans (if_pos rfl), fun a ha => (peek_stageByte b s a).trans (if_neg ha),
    untouched_stageByte b s⟩

/-! ### The append (R184) -/

/-- An append of staged bytes copies them to DST from DST_USED on. -/
theorem peek_appendBytes_staged (hbs : loadBytes s.stg 0 n = some bs) {j : Nat} (hj : j < n) :
    peek (appendBytes bs s) .dst (s.dstUsed.toNat + j) = peek s .stg j := by
  have hload := loadBytes_get hbs hj
  rw [Nat.zero_add] at hload
  have hlen : j < bs.length := by rwa [loadBytes_length hbs]
  calc peek (appendBytes bs s) .dst (s.dstUsed.toNat + j)
    _ = some bs[j] := readByte_storeBytes_inside hlen
    _ = bs[j]? := (List.getElem?_eq_getElem hlen).symm
    _ = peek s .stg j := hload.symm

theorem peek_appendBytes_outside (ha : ¬(s.dstUsed.toNat ≤ a ∧ a < s.dstUsed.toNat + bs.length)) :
    peek (appendBytes bs s) .dst a = peek s .dst a :=
  readByte_storeBytes_outside ha

/-- An append that fits changes DST only from the old DST_USED up to the new one. -/
theorem appendBytes_range (hfit : s.dstUsed.toNat + bs.length ≤ s.cfg.dstLimit.toNat)
    (hne : peek (appendBytes bs s) .dst a ≠ peek s .dst a) :
    s.dstUsed.toNat ≤ a ∧ a < (appendBytes bs s).dstUsed.toNat := by
  rw [appendBytes_used hfit]
  exact not_not.1 fun hout => hne (peek_appendBytes_outside hout)

/-- An effective command changes DST only from the old DST_USED up to the new one. -/
theorem effect_dst_range (h : exec i s = .next t) (he : Effect i s t) (hne : peek t .dst a ≠ peek s .dst a) :
    s.dstUsed.toNat ≤ a ∧ a < t.dstUsed.toNat := by
  cases i with
  | push b =>
    obtain ⟨-, -, -, ⟨-, rfl⟩ | ⟨-, hfit, bs, hbs, rfl⟩⟩ := he
    · exact absurd rfl hne
    · exact appendBytes_range (s := stageByte b s) (by rwa [loadBytes_length hbs]) hne
  | sinkFinal =>
    obtain ⟨-, -, hfit, bs, hbs, rfl⟩ := he
    exact appendBytes_range (by rwa [loadBytes_length hbs]) hne
  | nop | wrcfg | rdreg | convStart | convLine | sinkInit =>
    exact absurd (exec_keeps_byte h (by simp [spacesWritten]) a) hne

/-- Settles O21: a command that had no effect changed no byte, and of the others only the two that append write DST. -/
theorem appendWritesOnlyItsOwnRange : Obligations.AppendWritesOnlyItsOwnRange := by
  intro i s t h a hne
  rcases exec_cases h with ⟨-, rfl, -⟩ | ⟨-, -, c, rfl⟩ | ⟨-, he⟩
  · exact absurd rfl hne
  · exact absurd rfl hne
  · exact effect_dst_range h he hne

/-- The byte that fills the block leaves no hole in it if there was none before. -/
theorem heldBelow_stageByte_last (hr : s.stgRemaining.toNat = 1) (hs : HeldBelow s.stg 4095) :
    HeldBelow (stageByte b s).stg Config.stgCapacity := by
  rw [stageByte_stg, hr]
  exact heldBelow_extend (bs := [b]) hs

/-- The drain writes DST, STG and the sink's counters only. -/
theorem untouched_drain (b : Byte) (bs : List Byte) (s : State) :
    Untouched [.stgRemaining, .dstUsed, .dstCap] [.stg, .dst] s (emptyStaging (appendBytes bs (stageByte b s))) :=
  untouched_trans (untouched_mono (untouched_stageByte b s) (by simp) (by simp)) <|
    untouched_trans (untouched_mono (untouched_appendBytes bs _) (by simp) (by simp))
      (untouched_mono (untouched_emptyStaging _) (by simp) (by simp))

/-- Settles O53: the byte completes the block, and the whole block is appended. -/
theorem fillingPushDrainsTheBlock : Obligations.FillingPushDrainsTheBlock := by
  intro s b hl ho hr hheld hfit
  obtain ⟨bs, hbs⟩ := loadBytes_of_heldBelow (heldBelow_stageByte_last (b := b) hr hheld)
  have hlen : bs.length = 4096 := loadBytes_length hbs
  have hfit' : (stageByte b s).dstUsed.toNat + bs.length ≤ (stageByte b s).cfg.dstLimit.toNat := by rwa [hlen]
  have hstg : ∀ a, peek (stageByte b s) .stg a = if a = 4095 then some b else peek s .stg a := fun a => by
    rw [peek_stageByte, hr]
  have hdst : ∀ j, j < 4096 → peek (appendBytes bs (stageByte b s)) .dst (s.dstUsed.toNat + j) =
      peek (stageByte b s) .stg j := fun j hj => peek_appendBytes_staged hbs hj
  exact ⟨_, (exec_push_drains hl ho hr hfit).trans (appendStaged_eq_next.2 ⟨bs, hbs, rfl⟩), rfl,
    (appendBytes_used hfit').trans (by rw [hlen]; rfl), (appendBytes_cap hfit').trans (by rw [hlen]; rfl),
    fun j hj => (hdst j (by omega)).trans ((hstg j).trans (if_neg (by omega))),
    (hdst 4095 (by decide)).trans (hstg 4095), hstg 4095,
    fun a ha => peek_appendBytes_outside (s := stageByte b s) (by rwa [hlen]),
    fun a ha => (hstg a).trans (if_neg ha), untouched_drain b bs s⟩

/-! ### SINK_FINAL (R185) -/

theorem sinkFinal_faults_closed (hl : Live s) (ho : s.sphase ≠ .opened) : Faults .sinkFinal s .contractViolation := by
  simp only [Faults, exec, execSinkFinal, unlessFaulted_live hl, if_neg ho]
  rfl

theorem sinkFinal_faults_full (hl : Live s) (ho : s.sphase = .opened) (hhigh : s.stgRemaining.toNat ≤ 4096)
    (hfull : s.cfg.dstLimit.toNat < s.dstUsed.toNat + (4096 - s.stgRemaining.toNat)) :
    Faults .sinkFinal s .encodeOOM := by
  have hlevel : ¬Config.stgCapacity < s.stgRemaining.toNat := Nat.not_lt.2 hhigh
  have hfit : ¬appendFits (Config.stgCapacity - s.stgRemaining.toNat) s = true := by
    simpa [appendFits_iff] using hfull
  simp only [Faults, exec, execSinkFinal, unlessFaulted_live hl, if_pos ho, if_neg hlevel, if_neg hfit]
  rfl

/-- A SINK_FINAL that can have an effect has it. -/
theorem exec_sinkFinal_of_effect (hl : Live s) (he : Effect .sinkFinal s t) : exec .sinkFinal s = .next t := by
  obtain ⟨ho, hhigh, hfit, happend⟩ := he
  simp only [exec, execSinkFinal, unlessFaulted_live hl, if_pos ho, if_neg (Nat.not_lt.2 hhigh),
    if_pos (appendFits_iff.2 hfit)]
  exact appendStaged_eq_next.2 happend

/-- Settles O55: in order, the fault state ignores it, the closed sink and the full destination fault, and the rest
appends what is staged. -/
theorem sinkFinalFlushesAndCloses : Obligations.SinkFinalFlushesAndCloses := by
  intro s hhigh n u
  refine ⟨fun hf => unlessFaulted_faulted hf, sinkFinal_faults_closed,
    fun hl ho hfull => sinkFinal_faults_full hl ho hhigh hfull, fun hl ho hfit hheld => ?_⟩
  obtain ⟨bs, hbs⟩ := loadBytes_of_heldBelow hheld
  have hlen : bs.length = n := loadBytes_length hbs
  have hfit' : s.dstUsed.toNat + bs.length ≤ s.cfg.dstLimit.toNat := by rwa [hlen]
  have hexec : exec .sinkFinal s = .next (closeSink (appendBytes bs s)) :=
    exec_sinkFinal_of_effect hl ⟨ho, hhigh, hfit, bs, hbs, rfl⟩
  exact ⟨_, hexec, rfl, rfl, (not_faulted_iff s).1 hl, rfl, (appendBytes_used hfit').trans (by rw [hlen]),
    (appendBytes_cap hfit').trans (by rw [hlen]), fun j hj => peek_appendBytes_staged hbs hj,
    fun a ha => peek_appendBytes_outside (by rwa [hlen]),
    commandsWriteOnlyWhatTheyOwn .sinkFinal s _ hexec (by simp)⟩

/-! ### The part of the state that is the sink (R180) -/

/-- The block with the sink's registers and memories, the fault record and the parameters as in `s`, and everything else
as after reset. -/
def sinkOnly (s : State) : State :=
  { State.reset with
    sphase := s.sphase, latch := s.latch, stgRemaining := s.stgRemaining, dstUsed := s.dstUsed, dstCap := s.dstCap
    stg := s.stg, dst := s.dst, cfg := s.cfg }

/-- A command that is none of the sink's leaves the sink (R23, R30). -/
theorem effect_sinkOnly (he : Effect i s t) (hinit : i ≠ .sinkInit) (hfinal : i ≠ .sinkFinal)
    (hpush : ∀ b, i ≠ .push b) : sinkOnly t = sinkOnly s := by
  cases i with
  | nop => obtain rfl : t = s := he; rfl
  | rdreg reg => obtain rfl : t = _ := he; rfl
  | wrcfg reg val =>
    obtain ⟨r, -, -, -, rfl⟩ := he
    simp [sinkOnly]
  | convStart => obtain ⟨-, f, -, -, ⟨-, rfl⟩ | ⟨-, ts, -, rfl⟩⟩ := he <;> rfl
  | convLine => obtain ⟨-, f, ts, -, -, rfl⟩ := he; rfl
  | sinkInit => exact absurd rfl hinit
  | push b => exact absurd rfl (hpush b)
  | sinkFinal => exact absurd rfl hfinal

theorem effect_sinkFinal_phase (he : Effect .sinkFinal s t) : t.sphase = .done := by
  obtain ⟨-, -, -, rest, -, rfl⟩ := he
  rfl

/-- Settles O50: a command out of its phase faults; a command that leaves no fault had its effect, and only those of
SINK_INIT and SINK_FINAL write the phase. -/
theorem sinkPhasesChangeAsListed : Obligations.SinkPhasesChangeAsListed := by
  refine ⟨fun s => sinkInit_faults_open, fun s b => push_faults_closed, fun s => sinkFinal_faults_closed,
    fun i s t _ h hlive => ?_⟩
  have he := exec_effect h hlive
  cases i with
  | sinkInit => obtain ⟨-, rfl⟩ := he; rfl
  | push b => obtain ⟨-, -, -, ⟨-, rfl⟩ | ⟨-, -, bs, -, rfl⟩⟩ := he <;> rfl
  | sinkFinal => exact effect_sinkFinal_phase he
  | nop | wrcfg | rdreg | convStart | convLine =>
    exact (congrArg State.sphase (effect_sinkOnly he (by simp) (by simp) (by simp)) :)

end Sys2Proof.Machine
end

section
/-! PROOFS. A run between SINK_INIT and SINK_FINAL acts on the sink as its pushes alone do (spec/44_sink.md R183). -/

namespace Sys2Proof.Machine

variable {s t : State} {i : Instr} {b : Byte}

/-- PUSH acts on the sink as if there were nothing else in the block (R182). -/
theorem effect_push_sinkOnly (he : Effect (.push b) s t) : Effect (.push b) (sinkOnly s) (sinkOnly t) := by
  obtain ⟨ho, hlow, hhigh, ⟨hr, rfl⟩ | ⟨hr, hfit, bs, hbs, rfl⟩⟩ := he
  · exact ⟨ho, hlow, hhigh, .inl ⟨hr, rfl⟩⟩
  · exact ⟨ho, hlow, hhigh, .inr ⟨hr, hfit, bs, hbs, rfl⟩⟩

/-- A command but PUSH carries no pushed byte. -/
theorem pushedBytes_cons_of_ne_push (hi : ∀ b, i ≠ .push b) (cmds : List Instr) :
    pushedBytes (i :: cmds) = pushedBytes cmds := by
  cases i with
  | push b => exact absurd rfl (hi b)
  | nop | wrcfg | rdreg | convStart | convLine | sinkInit | sinkFinal => rfl

theorem runCommands_cons_eq_next {cmds : List Instr} :
    runCommands (i :: cmds) s = .next t ↔ ∃ u, exec i s = .next u ∧ runCommands cmds u = .next t := by
  simp only [runCommands]
  cases exec i s <;> simp

/-- A run that leaves no fault recorded found none (R206). -/
theorem runCommands_live_before {cmds : List Instr} (h : runCommands cmds s = .next t) (ht : Live t) : Live s := by
  induction cmds generalizing s with
  | nil => rwa [Host.Outcome.next.inj h]
  | cons i cmds ih =>
    obtain ⟨u, hexec, hrun⟩ := runCommands_cons_eq_next.1 h
    exact exec_live_before hexec (ih hrun)

/-- A fault-free run without SINK_INIT and SINK_FINAL leaves the sink that its pushes alone would have left. -/
theorem runCommands_pushes {cmds : List Instr} (hcmds : ∀ i ∈ cmds, i ≠ .sinkInit ∧ i ≠ .sinkFinal)
    (h : runCommands cmds s = .next t) (ht : Live t) :
    runCommands ((pushedBytes cmds).map .push) (sinkOnly s) = .next (sinkOnly t) := by
  induction cmds generalizing s with
  | nil =>
    obtain rfl := Host.Outcome.next.inj h
    rfl
  | cons i cmds ih =>
    obtain ⟨⟨hinit, hfinal⟩, hrest⟩ := List.forall_mem_cons.1 hcmds
    obtain ⟨u, hexec, hrun⟩ := runCommands_cons_eq_next.1 h
    have hu : Live u := runCommands_live_before hrun ht
    have he : Effect i s u := exec_effect hexec hu
    by_cases hpush : ∃ b, i = .push b
    · obtain ⟨b, rfl⟩ := hpush
      have hl : Live s := exec_live_before hexec hu
      exact runCommands_cons_eq_next.2
        ⟨sinkOnly u, exec_push_of_effect hl (effect_push_sinkOnly he), ih hrest hrun⟩
    · have hpush : ∀ b, i ≠ .push b := fun b hb => hpush ⟨b, hb⟩
      rw [pushedBytes_cons_of_ne_push hpush, ← effect_sinkOnly he hinit hfinal hpush]
      exact ih hrest hrun

theorem expand_pushN (b : Nat) (bs : List Nat) :
    (AsmLine.pushN b bs).expand = (b :: bs).flatMap fun x => (AsmLine.push x).expand :=
  List.map_eq_flatMap

/-- Settles O7: both runs leave the sink that the pushes alone would have left. -/
theorem pushGroupingHasNoEffect : Obligations.PushGroupingHasNoEffect := by
  refine ⟨expand_pushN, fun s t u xs ys _ hxs hys hbytes hx ht hy hu => ?_⟩
  have hrun := runCommands_pushes hxs hx ht
  rw [hbytes, runCommands_pushes hys hy hu] at hrun
  have hsink : sinkOnly u = sinkOnly t := Host.Outcome.next.inj hrun
  exact ⟨(congrArg State.stgRemaining hsink :), (congrArg State.dstUsed hsink :), (congrArg State.dstCap hsink :),
    (congrArg State.sphase hsink :), fun a => (congrArg (peek · .stg a) hsink :),
    fun a => (congrArg (peek · .dst a) hsink :)⟩

end Sys2Proof.Machine
end

section
/-! PROOFS. What an encode leaves in DST, and that one within DST_LIMIT completes (spec/44_sink.md R187,
spec/70_reset_and_hazards.md R248). -/

namespace Sys2Proof.Machine

variable {s t : State} {i : Instr} {b : Byte} {bs drained staged : List Byte}

/-! ### The open sink -/

/-- Bytes written behind loaded ones are loaded with them. -/
theorem loadBytes_storeBytes_extend {m : Memory} (h : loadBytes m 0 bs.length = some bs) (cs : List Byte) :
    loadBytes (storeBytes m bs.length cs) 0 (bs.length + cs.length) = some (bs ++ cs) := by
  refine loadBytes_eq List.length_append fun j hj => ?_
  rw [Nat.zero_add, readByte_storeBytes]
  by_cases hlow : j < bs.length
  · rw [if_neg (by omega), List.getElem?_append_left hlow, ← loadBytes_get h hlow, Nat.zero_add]
  · rw [if_pos (by omega), List.getElem?_append_right (by omega)]

/-- The open sink holds the bytes pushed since SINK_INIT: whole blocks in DST and the rest, less than a block, in the
staging block (R182, R186). -/
structure SinkHolds (drained staged : List Byte) (s : State) : Prop where
  phase : s.sphase = .opened
  blocks : drained.length % 4096 = 0
  partialBlock : staged.length < 4096
  level : s.stgRemaining.toNat = 4096 - staged.length
  used : s.dstUsed.toNat = drained.length
  dst : loadBytes s.dst 0 drained.length = some drained
  stg : loadBytes s.stg 0 staged.length = some staged

/-- The bytes `bs` have been pushed into the open sink since SINK_INIT (R187). -/
def Pushed (bs : List Byte) (s : State) : Prop := ∃ drained staged, drained ++ staged = bs ∧ SinkHolds drained staged s

/-- What has been pushed is a matter of the sink alone. -/
theorem pushed_sinkOnly : Pushed bs (sinkOnly s) ↔ Pushed bs s := by
  constructor
  · rintro ⟨drained, staged, hbs, h⟩
    exact ⟨drained, staged, hbs, { h with }⟩
  · rintro ⟨drained, staged, hbs, h⟩
    exact ⟨drained, staged, hbs, { h with }⟩

theorem effect_sinkInit_pushed (he : Effect .sinkInit s t) : Pushed [] t := by
  obtain ⟨-, rfl⟩ := he
  exact ⟨[], [], rfl, ⟨rfl, rfl, by decide, rfl, rfl, rfl, rfl⟩⟩

/-- The level of the staging block says how many bytes are staged (R182). -/
theorem staged_length (h : SinkHolds drained staged s) :
    Config.stgCapacity - s.stgRemaining.toNat = staged.length := by
  have hpartial := h.partialBlock
  rw [h.level, Config.stgCapacity]
  omega

/-- The staged bytes with one byte more. -/
theorem loadBytes_stageByte (h : SinkHolds drained staged s) (b : Byte) :
    loadBytes (stageByte b s).stg 0 (staged.length + 1) = some (staged ++ [b]) := by
  rw [stageByte_stg, staged_length h]
  exact loadBytes_storeBytes_extend h.stg [b]

/-- With one byte left, the staged bytes and one more are the whole block (R182). -/
theorem loadBytes_stageByte_last (h : SinkHolds drained staged s) (hr : s.stgRemaining.toNat = 1) (b : Byte) :
    loadBytes (stageByte b s).stg 0 Config.stgCapacity = some (staged ++ [b]) := by
  have hlast : staged.length + 1 = Config.stgCapacity := by
    have hlevel := h.level
    rw [Config.stgCapacity]
    omega
  rw [← hlast]
  exact loadBytes_stageByte h b

/-- Staging a byte that does not fill the block adds it to the staged bytes (R182). -/
theorem sinkHolds_stageByte (h : SinkHolds drained staged s) (hr : s.stgRemaining.toNat ≠ 1) (b : Byte) :
    SinkHolds drained (staged ++ [b]) (stageByte b s) := by
  have hlevel := h.level
  have hpartial := h.partialBlock
  have hlen : (staged ++ [b]).length = staged.length + 1 := List.length_append
  exact { h with
    partialBlock := by omega
    level := by
      rw [stageByte_stgRemaining, remaining_pred (by omega), hlen]
      omega
    stg := by
      rw [hlen]
      exact loadBytes_stageByte h b }

/-- An append that fits puts the bytes behind those that stand in DST (R184). -/
theorem loadBytes_appendBytes (hused : s.dstUsed.toNat = drained.length)
    (hdst : loadBytes s.dst 0 drained.length = some drained) (bs : List Byte) :
    loadBytes (appendBytes bs s).dst 0 (drained.length + bs.length) = some (drained ++ bs) := by
  rw [appendBytes_dst, hused]
  exact loadBytes_storeBytes_extend hdst bs

/-- Draining a filled block adds it to the drained bytes and leaves none staged (R186). -/
theorem sinkHolds_drain (h : SinkHolds drained staged s) (hlen : bs.length = 4096)
    (hfit : s.dstUsed.toNat + 4096 ≤ s.cfg.dstLimit.toNat) (b : Byte) :
    SinkHolds (drained ++ bs) [] (emptyStaging (appendBytes bs (stageByte b s))) where
  phase := h.phase
  blocks := by
    have hblocks := h.blocks
    rw [List.length_append]
    omega
  partialBlock := by simp
  level := rfl
  used := by
    have hfit' : (stageByte b s).dstUsed.toNat + bs.length ≤ (stageByte b s).cfg.dstLimit.toNat := by rwa [hlen]
    rw [List.length_append, ← h.used]
    exact appendBytes_used hfit'
  dst := by
    rw [List.length_append]
    exact loadBytes_appendBytes (s := stageByte b s) h.used h.dst bs
  stg := rfl

/-- An effective PUSH adds its byte to those pushed before. -/
theorem effect_push_pushed (h : Pushed bs s) (he : Effect (.push b) s t) : Pushed (bs ++ [b]) t := by
  obtain ⟨drained, staged, rfl, hsink⟩ := h
  obtain ⟨-, -, -, ⟨hr, rfl⟩ | ⟨hr, hfit, block, hblock, rfl⟩⟩ := he
  · exact ⟨drained, staged ++ [b], (List.append_assoc ..).symm, sinkHolds_stageByte hsink hr b⟩
  · obtain rfl : staged ++ [b] = block := Option.some.inj ((loadBytes_stageByte_last hsink hr b).symm.trans hblock)
    exact ⟨drained ++ (staged ++ [b]), [], by simp, sinkHolds_drain hsink (loadBytes_length hblock) hfit b⟩

/-- Pushes that leave no fault add their bytes in order. -/
theorem runCommands_pushes_pushed {bytes : List Byte} (h : Pushed bs s)
    (hrun : runCommands (bytes.map .push) s = .next t) (ht : Live t) : Pushed (bs ++ bytes) t := by
  induction bytes generalizing s bs with
  | nil =>
    obtain rfl := Host.Outcome.next.inj hrun
    rwa [List.append_nil]
  | cons b bytes ih =>
    obtain ⟨u, hexec, hrest⟩ := runCommands_cons_eq_next.1 hrun
    have he : Effect (.push b) s u := exec_effect hexec (runCommands_live_before hrest ht)
    rw [List.append_cons]
    exact ih (effect_push_pushed h he) hrest

/-! ### A fault-free encode (R187) -/

/-- A fault-free run from SINK_INIT on has pushed the bytes of its PUSH commands. -/
theorem runCommands_sinkInit_pushed {cmds : List Instr} (hcmds : ∀ i ∈ cmds, i ≠ .sinkInit ∧ i ≠ .sinkFinal)
    (h : runCommands (.sinkInit :: cmds) s = .next t) (ht : Live t) : Pushed (pushedBytes cmds) t := by
  obtain ⟨u, hinit, hrun⟩ := runCommands_cons_eq_next.1 h
  have hlive : Live u := runCommands_live_before hrun ht
  have hu : Pushed [] u := effect_sinkInit_pushed (exec_effect hinit hlive)
  exact pushed_sinkOnly.1 (runCommands_pushes_pushed (pushed_sinkOnly.2 hu) (runCommands_pushes hcmds hrun ht) ht)

/-- How many blocks have been drained and how many bytes are staged. -/
theorem pushed_counters (h : Pushed bs s) :
    s.dstUsed.toNat = 4096 * (bs.length / 4096) ∧ s.stgRemaining.toNat = 4096 - bs.length % 4096 := by
  obtain ⟨drained, staged, rfl, hsink⟩ := h
  have hblocks := hsink.blocks
  have hpartial := hsink.partialBlock
  rw [hsink.used, hsink.level, List.length_append]
  omega

/-- SINK_FINAL leaves the pushed bytes in DST, with room for them (R184, R185). -/
theorem effect_sinkFinal_pushed (h : Pushed bs s) (he : Effect .sinkFinal s t) :
    t.dstUsed.toNat = bs.length ∧ bs.length ≤ t.dstCap.toNat ∧ loadBytes t.dst 0 bs.length = some bs := by
  obtain ⟨drained, staged, rfl, hsink⟩ := h
  obtain ⟨-, -, hfit, rest, hrest, rfl⟩ := he
  have hstaged := staged_length hsink
  rw [hstaged] at hfit hrest
  obtain rfl : staged = rest := Option.some.inj (hsink.stg.symm.trans hrest)
  have hlen : s.dstUsed.toNat + staged.length = (drained ++ staged).length := by rw [hsink.used, List.length_append]
  refine ⟨(appendBytes_used hfit).trans hlen, ?_, ?_⟩
  · rw [← hlen]
    exact (le_max_right _ _).trans (appendBytes_cap hfit).ge
  · rw [List.length_append]
    exact loadBytes_appendBytes hsink.used hsink.dst staged

/-- Settles O56: the sink holds the pushed bytes before SINK_FINAL, which appends the staged ones to the drained ones. -/
theorem faultFreeEncodeLeavesThePushedBytes : Obligations.FaultFreeEncodeLeavesThePushedBytes := by
  intro s m t cmds hcmds hrun hfinal ht k
  have hpushed : Pushed (pushedBytes cmds) m := runCommands_sinkInit_pushed hcmds hrun (exec_live_before hfinal ht)
  have he : Effect .sinkFinal m t := exec_effect hfinal ht
  obtain ⟨hused, hlevel⟩ := pushed_counters hpushed
  obtain ⟨husedAll, hcap, hdst⟩ := effect_sinkFinal_pushed hpushed he
  refine ⟨hused, hlevel, husedAll, hcap, effect_sinkFinal_phase he, fun j hj => ?_⟩
  rw [← loadBytes_get hdst hj, Nat.zero_add]
  rfl

/-! ### An encode within the limit (R187, R248) -/

/-- A PUSH that stays within DST_LIMIT completes. -/
theorem push_completes (hl : Live s) (h : Pushed bs s) (hfit : bs.length + 1 ≤ s.cfg.dstLimit.toNat) (b : Byte) :
    ∃ t, exec (.push b) s = .next t ∧ Live t := by
  obtain ⟨drained, staged, rfl, hsink⟩ := h
  have hlevel := hsink.level
  have hpartial := hsink.partialBlock
  rw [List.length_append, ← hsink.used] at hfit
  by_cases hr : s.stgRemaining.toNat = 1
  · have hdrains := exec_push_drains (b := b) hl hsink.phase hr (by omega)
    exact ⟨_, hdrains.trans (appendStaged_eq_next.2 ⟨_, loadBytes_stageByte_last hsink hr b, rfl⟩), hl⟩
  · exact ⟨_, exec_push_stages hl hsink.phase (by omega) (by omega), hl⟩

/-- Pushes that stay within DST_LIMIT complete. -/
theorem runCommands_pushes_completes {bytes : List Byte} (hl : Live s) (h : Pushed bs s)
    (hfit : bs.length + bytes.length ≤ s.cfg.dstLimit.toNat) :
    ∃ t, runCommands (bytes.map .push) s = .next t ∧ Live t := by
  induction bytes generalizing s bs with
  | nil => exact ⟨s, rfl, hl⟩
  | cons b bytes ih =>
    rw [List.length_cons] at hfit
    obtain ⟨u, hexec, hu⟩ := push_completes hl h (by omega) b
    have hlen : (bs ++ [b]).length = bs.length + 1 := List.length_append
    obtain ⟨t, hrun, ht⟩ := ih hu (effect_push_pushed h (exec_effect hexec hu)) (by rw [hlen, exec_cfg hexec]; omega)
    exact ⟨t, runCommands_cons_eq_next.2 ⟨u, hexec, hrun⟩, ht⟩

/-- SINK_FINAL of pushed bytes within DST_LIMIT completes and leaves no fault. -/
theorem sinkFinal_completes (hl : Live s) (h : Pushed bs s) (hfit : bs.length ≤ s.cfg.dstLimit.toNat) :
    ∃ t, exec .sinkFinal s = .next t ∧ Live t ∧ Effect .sinkFinal s t := by
  obtain ⟨drained, staged, rfl, hsink⟩ := h
  have hstaged := staged_length hsink
  have he : Effect .sinkFinal s (closeSink (appendBytes staged s)) := by
    refine ⟨hsink.phase, ?_, ?_, staged, ?_, rfl⟩
    · rw [hsink.level]
      exact Nat.sub_le _ _
    · rwa [hstaged, hsink.used, ← List.length_append]
    · rw [hstaged]
      exact hsink.stg
  exact ⟨_, exec_sinkFinal_of_effect hl he, hl, he⟩

/-- A command that has its effect records no fault (R204). -/
theorem effect_live (he : Effect i s t) (hl : Live s) : Live t := by
  simpa [Live, State.faulted, effect_latch he] using hl

/-- An encode within DST_LIMIT from SINK_INIT to SINK_FINAL completes. -/
theorem runCommands_encode_completes {bytes : List Byte} (hl : Live s) (ho : s.sphase ≠ .opened)
    (hfit : bytes.length ≤ s.cfg.dstLimit.toNat) :
    ∃ t, runCommands (.sinkInit :: (bytes.map .push ++ [.sinkFinal])) s = .next t ∧ Live t ∧ t.sphase = .done ∧
      t.dstUsed.toNat = bytes.length := by
  obtain ⟨u, hinit⟩ : ∃ u, Effect .sinkInit s u := ⟨_, ho, rfl⟩
  have hexecInit := exec_sinkInit_of_effect hl hinit
  have hempty : Pushed [] u := effect_sinkInit_pushed hinit
  obtain ⟨m, hpushes, hm⟩ : ∃ m, runCommands (bytes.map .push) u = .next m ∧ Live m :=
    runCommands_pushes_completes (effect_live hinit hl) hempty (by simpa [exec_cfg hexecInit] using hfit)
  have hpushed : Pushed bytes m := runCommands_pushes_pushed hempty hpushes hm
  have hcfg : m.cfg = s.cfg := runCommands_keeps (P := fun v => v.cfg = s.cfg)
    (fun _ _ _ hv hexec => (exec_cfg hexec).trans hv) (exec_cfg hexecInit) hpushes
  obtain ⟨t, hexecFinal, ht, hfinal⟩ := sinkFinal_completes hm hpushed (by rwa [hcfg])
  obtain ⟨hused, -, -⟩ := effect_sinkFinal_pushed hpushed hfinal
  refine ⟨t, runCommands_cons_eq_next.2 ⟨u, hexecInit, ?_⟩, ht, effect_sinkFinal_phase hfinal, hused⟩
  rw [runCommands_append, hpushes]
  exact runCommands_cons_eq_next.2 ⟨t, hexecFinal, rfl⟩

/-! ### What the sink's commands leave unchanged -/

/-- A relation that is reflexive and transitive and holds over every command of a list holds over the run. -/
theorem runCommands_relates {R : State → State → Prop} (hrefl : ∀ s, R s s) (htrans : ∀ s u t, R s u → R u t → R s t)
    {cmds : List Instr} (hR : ∀ i ∈ cmds, ∀ s t, exec i s = .next t → R s t) (h : runCommands cmds s = .next t) :
    R s t := by
  induction cmds generalizing s with
  | nil =>
    obtain rfl := Host.Outcome.next.inj h
    exact hrefl s
  | cons i cmds ih =>
    obtain ⟨hi, hrest⟩ := List.forall_mem_cons.1 hR
    obtain ⟨u, hexec, hrun⟩ := runCommands_cons_eq_next.1 h
    exact htrans s u t (hi s u hexec) (ih hrest hrun)

/-- Only the two converter commands change the converter's phase, whatever fault is recorded (R120, R204). -/
theorem exec_cphase (h : exec i s = .next t) (hstart : i ≠ .convStart) (hline : i ≠ .convLine) :
    t.cphase = s.cphase := by
  rcases exec_cases h with ⟨-, rfl, -⟩ | ⟨-, -, c, rfl⟩ | ⟨-, he⟩
  · rfl
  · rfl
  · exact effect_cphase he hstart hline

/-- The registers the sink's commands may write (R23, R180). -/
def sinkRegs : List RegName := [.status, .stgRemaining, .dstUsed, .dstCap, .dstFormat, .dstWidth, .dstHeight]

/-- The sink's commands leave the converter's phase, its registers and memories, and SRC (R23, R30). -/
theorem exec_sinkCommand_frame (hi : i = .sinkInit ∨ (∃ b, i = .push b) ∨ i = .sinkFinal) (h : exec i s = .next t) :
    t.cphase = s.cphase ∧ Untouched sinkRegs [.stg, .dst] s t := by
  rcases hi with rfl | ⟨b, rfl⟩ | rfl
  all_goals
    exact ⟨exec_cphase h (by simp) (by simp), untouched_mono (commandsWriteOnlyWhatTheyOwn _ s t h (by simp))
      (by simp [regsWritten, sinkRegs]) (by simp [spacesWritten])⟩

theorem mem_encode {bytes : List Byte} (hi : i ∈ Instr.sinkInit :: (bytes.map .push ++ [.sinkFinal])) :
    i = .sinkInit ∨ (∃ b, i = .push b) ∨ i = .sinkFinal := by
  simp only [List.mem_cons, List.mem_append, List.mem_map, List.not_mem_nil, or_false] at hi
  rcases hi with rfl | ⟨b, -, rfl⟩ | rfl
  · exact .inl rfl
  · exact .inr (.inl ⟨b, rfl⟩)
  · exact .inr (.inr rfl)

/-- Settles O57: each of the commands completes, and none writes outside the sink. -/
theorem encodeWithinTheLimitCompletes : Obligations.EncodeWithinTheLimitCompletes := by
  intro s bytes hl ho hfit
  obtain ⟨t, hrun, ht, hphase, hused⟩ := runCommands_encode_completes hl ho hfit
  obtain ⟨hc, hframe⟩ := runCommands_relates (R := fun s t => t.cphase = s.cphase ∧ Untouched sinkRegs [.stg, .dst] s t)
    (fun s => ⟨rfl, untouched_refl s⟩) (fun _ _ _ ⟨hc, hu⟩ ⟨hc', hu'⟩ => ⟨hc'.trans hc, untouched_trans hu hu'⟩)
    (fun _ hi _ _ hexec => exec_sinkCommand_frame (mem_encode hi) hexec) hrun
  exact ⟨t, hrun, ht, hphase, hused, hc, hframe⟩

end Sys2Proof.Machine
end

section
/-! PROOFS. How the fault state is entered and left (spec/60_exceptions.md R204 to R207): precisely, for good but for a
reset, and visible on `fault_o`; and that a block with nothing pending waits (R207, R231). -/

namespace Sys2Proof.Machine

variable {s t : State} {i : Instr} {w : Word}

/-! ### Entering the fault state (R204) -/

/-- Settles O22: a word that leaves a fault recorded where none was had no effect, so it raised one, by its own opcode. -/
theorem faultEntryIsPrecise : Obligations.FaultEntryIsPrecise := by
  intro w s t hl h hfault
  rcases runWord_cases h with ⟨i, hdec, hexec⟩ | ⟨hf, -⟩ | ⟨-, ht⟩
  · rw [opField_of_decode hdec]
    rcases exec_cases hexec with ⟨hf, -⟩ | ⟨-, -, hraised⟩ | ⟨-, he⟩
    · exact absurd hf (Bool.eq_false_iff.1 hl)
    · exact hraised
    · exact absurd hfault (Bool.eq_false_iff.1 (effect_live he hl))
  · exact absurd hf (Bool.eq_false_iff.1 hl)
  · exact ⟨_, ht⟩

/-! ### In the fault state (R205) -/

/-- In the fault state only RDREG does anything (R205, R111). -/
theorem exec_faulted (hf : s.faulted = true) (hi : ∀ x, i ≠ .rdreg x) : exec i s = .next s := by
  cases i with
  | nop => rfl
  | rdreg x => exact absurd rfl (hi x)
  | wrcfg | convStart | convLine | sinkInit | push | sinkFinal => exact unlessFaulted_faulted hf

/-- Settles O23: RDREG does not look at the fault; the other commands and the illegal words do before all else. -/
theorem faultStateIgnoresOtherWords : Obligations.FaultStateIgnoresOtherWords := by
  refine fun w s hf => ⟨fun x hdec => runWord_command hdec s, fun hw => ?_⟩
  cases hdec : decode w with
  | ok i =>
    rw [runWord_command hdec]
    refine exec_faulted hf fun x hi => hw x ?_
    rw [hdec, hi]
  | error why =>
    rw [runWord_illegal hdec]
    exact unlessFaulted_faulted hf

/-! ### Leaving the fault state (R206) -/

/-- No word on the port changes a recorded fault (R205, R206). -/
theorem runWord_keeps_latch (hf : s.faulted = true) (h : runWord w s = .next t) : t.latch = s.latch := by
  obtain ⟨hrdreg, hother⟩ := faultStateIgnoresOtherWords w s hf
  by_cases hw : ∃ x, decode w = .ok (.rdreg x)
  · obtain ⟨x, hdec⟩ := hw
    obtain rfl := Host.Outcome.next.inj ((hrdreg x hdec).symm.trans h)
    rfl
  · obtain rfl := Host.Outcome.next.inj ((hother (not_exists.1 hw)).symm.trans h)
    rfl

/-- A reset that abandons a command leaves the registers of the reset state too (R230). -/
theorem regValue_resetAbandoning (r : RegName) (w : Word) (s : State) :
    regValue r (resetAbandoning w s) = regValue r State.reset := by
  rcases resetAbandoning_cases w s with he | he <;> rw [he] <;> cases r <;> rfl

/-- Settles O24: by the kind of the step; the words keep the fault, the host's write does not reach the registers. -/
theorem onlyResetLeavesTheFaultState : Obligations.OnlyResetLeavesTheFaultState := by
  intro s t hf h
  rcases step_cases h with ⟨-, rfl⟩ | ⟨rest, ⟨w, -, hrun⟩ | ⟨a, bs, -, hwrite⟩ | ⟨hin, rfl⟩ | ⟨w, hin, rfl⟩⟩
  · exact .inl rfl
  · exact .inl (runWord_keeps_latch (s := { s with inbox := rest }) hf hrun)
  · obtain ⟨-, -, rfl⟩ := hostWriteSrc_eq_next hwrite
    exact .inl rfl
  · exact .inr ⟨⟨rest, .inl hin⟩, fun r => regValue_resetBlock r _⟩
  · exact .inr ⟨⟨rest, .inr ⟨w, hin⟩⟩, fun r => regValue_resetAbandoning r w _⟩

/-! ### Between the words (R207, R231) -/

/-- Settles O10: with no move to take the step is the state itself. -/
theorem nothingPendingChangesNothing : Obligations.NothingPendingChangesNothing := by
  intro s hin
  simp only [step, hin]

/-- Settles O26: the output is the flag FAULT, which STATUS holds in the lowest bit above the phases. -/
theorem faultOutputFollowsStatus : Obligations.FaultOutputFollowsStatus := by
  intro s
  have hfield := (status_latch_field s (k := 0) (len := 1) (by decide)).trans (latchBits_fault_field s.latch)
  have hbit := congrArg (BitVec.getLsbD · 0) hfield
  rw [BitVec.getLsbD_extractLsb'] at hbit
  rw [faultOutput, State.faulted]
  cases hs : s.latch.isSome <;> simpa [hs] using hbit.symm

end Sys2Proof.Machine
end

section
/-! PROOFS. The list of faults is complete (spec/60_exceptions.md R200, R208): every command raises a fault the list gives
it, or no condition of the list holds of it and it can only have its effect. -/

namespace Sys2Proof.Machine

variable {s t : State} {f : Format} {i : Instr} {c c' : Cause} {b : Byte}

/-! ### At most one fault -/

/-- A command raises one fault, of one cause (R200). -/
theorem faults_unique (h : Faults i s c) (h' : Faults i s c') : c = c' := by
  have hlatch := congrArg State.latch (Host.Outcome.next.inj (h.symm.trans h'))
  exact congrArg FaultRecord.cause (Option.some.inj hlatch)

/-- A command that can only have its effect raises no fault (R204). -/
theorem not_faults_of_effect (hl : Live s) (h : ∀ t, exec i s = .next t → Effect i s t) (c : Cause) :
    ¬Faults i s c := by
  intro hfault
  have hlive := effect_live (h _ hfault) hl
  simp [Live, State.faulted] at hlive

/-! ### Commands whose tests have passed -/

theorem startFrame_eq_next (h : startFrame f s = .next t) :
    (semiPlanar f = false ∧ t = beginFrame s) ∨
      (semiPlanar f = true ∧ ∃ ts, frameTriplets f s.src s.srcWidth.toNat s.srcHeight.toNat = some ts ∧
        t = beginFrame { s with plane := storeBytes s.plane 0 (rowBytes ts) }) := by
  cases hs : semiPlanar f with
  | false => exact .inl ⟨rfl, (Host.Outcome.next.inj ((startFrame_packed hs s).symm.trans h)).symm⟩
  | true =>
    cases hts : frameTriplets f s.src s.srcWidth.toNat s.srcHeight.toNat with
    | none => simp [startFrame, hs, hts] at h
    | some ts =>
      exact .inr ⟨rfl, ts, rfl, (Host.Outcome.next.inj ((startFrame_semiPlanar hs hts).symm.trans h)).symm⟩

/-- Past its tests CONV_START begins the frame, if SRC holds every byte it converts (R121). -/
theorem exec_convStart_accepted (hl : Live s) (hc : s.cphase ≠ .active) (hf : formatOfTag s.srcFormat = some f)
    (hfault : frameFault f s = none) (h : exec .convStart s = .next t) : Effect .convStart s t := by
  simp only [exec, execConvStart, unlessFaulted_live hl, if_neg hc, hf, hfault] at h
  exact ⟨hc, f, hf, hfault, startFrame_eq_next h⟩

/-- With a frame in progress CONV_LINE can only deliver a row (R124). -/
theorem exec_convLine_active (hl : Live s) (hc : s.cphase = .active) (h : exec .convLine s = .next t) :
    Effect .convLine s t := by
  cases hf : formatOfTag s.srcFormat with
  | none => simp [exec, execConvLine, unlessFaulted_live hl, hc, hf] at h
  | some f =>
    obtain ⟨ts, hts, ht⟩ := (exec_convLine_eq_next hl hc hf).1 h
    exact ⟨hc, f, ts, hf, hts, ht⟩

/-- With room in the destination PUSH can only stage its byte, and drain the block it fills (R182, R186). -/
theorem exec_push_room (hl : Live s) (ho : s.sphase = .opened) (hlow : 1 ≤ s.stgRemaining.toNat)
    (hhigh : s.stgRemaining.toNat ≤ 4096)
    (hroom : s.stgRemaining.toNat = 1 → s.dstUsed.toNat + 4096 ≤ s.cfg.dstLimit.toNat)
    (h : exec (.push b) s = .next t) : Effect (.push b) s t := by
  refine ⟨ho, hlow, hhigh, ?_⟩
  by_cases hr : s.stgRemaining.toNat = 1
  · rw [exec_push_drains hl ho hr (hroom hr)] at h
    exact .inr ⟨hr, hroom hr, appendStaged_eq_next.1 h⟩
  · rw [exec_push_stages hl ho (by omega) hhigh] at h
    exact .inl ⟨hr, (Host.Outcome.next.inj h).symm⟩

/-- With room in the destination SINK_FINAL can only append what is staged and close the sink (R185). -/
theorem exec_sinkFinal_room (hl : Live s) (ho : s.sphase = .opened) (hhigh : s.stgRemaining.toNat ≤ 4096)
    (hroom : s.dstUsed.toNat + (4096 - s.stgRemaining.toNat) ≤ s.cfg.dstLimit.toNat)
    (h : exec .sinkFinal s = .next t) : Effect .sinkFinal s t := by
  have hlevel : ¬Config.stgCapacity < s.stgRemaining.toNat := Nat.not_lt.2 hhigh
  have hfits : appendFits (Config.stgCapacity - s.stgRemaining.toNat) s = true := appendFits_iff.2 hroom
  simp only [exec, execSinkFinal, unlessFaulted_live hl, if_pos ho, if_neg hlevel, if_pos hfits] at h
  exact ⟨ho, hhigh, hroom, appendStaged_eq_next.1 h⟩

/-! ### The table of R200, row by row -/

/-- The command raises a fault that the table gives it. -/
def RaisesListed (i : Instr) (s : State) : Prop := ∃ c, raisedWhen i s c ∧ Faults i s c

/-- No condition of the table holds of the command, and if it answers it has had its effect. -/
def PassesAllTests (i : Instr) (s : State) : Prop :=
  (∀ c, ¬raisedWhen i s c) ∧ ∀ t, exec i s = .next t → Effect i s t

theorem wrcfg_listed (hl : Live s) (reg : Byte) (val : Half) :
    RaisesListed (.wrcfg reg val) s ∨ PassesAllTests (.wrcfg reg val) s := by
  by_cases hreg : 1 ≤ reg.toNat ∧ reg.toNat ≤ 4
  · by_cases hc : s.cphase = .active
    · exact .inl ⟨.contractViolation, .inr hc, wrcfg_faults_active reg val hl hc⟩
    · refine .inr ⟨fun c => ?_, fun t h => ?_⟩
      · cases c <;> simp [raisedWhen, hreg, hc]
      · obtain ⟨r, rfl, hw⟩ := exists_hostMayWrite_of_index hreg.1 hreg.2
        rw [exec_wrcfg_next val hl hw hc] at h
        exact ⟨r, regOfIndex_registerIndex r, hw, hc, (Host.Outcome.next.inj h).symm⟩
  · exact .inl ⟨.contractViolation, .inl hreg, wrcfg_faults_index val hl hreg⟩

/-- With a supported format and no frame in progress, what the table asks of CONV_START is the dimensions and then
PLANE's capacity (R121 to R123, R200). -/
theorem raisedWhen_convStart_iff (hc : s.cphase ≠ .active) (hf : formatOfTag s.srcFormat = some f) (c : Cause) :
    raisedWhen .convStart s c ↔
      (c = .contractViolation ∧ ¬DimensionsFit f s.srcWidth.toNat s.srcHeight.toNat) ∨
      (c = .encodeOOM ∧ semiPlanar f = true ∧ s.cfg.planeCap < 3 * s.srcWidth.toNat * s.srcHeight.toNat) := by
  have htag := formatOfTag_eq_some.1 hf
  have hsupported : 1 ≤ s.srcFormat.toNat ∧ s.srcFormat.toNat ≤ 8 :=
    not_not.1 fun hn => absurd (formatOfTag_eq_none.2 hn) (by simp [hf])
  cases c with
  | unsupportedFormat => simp [raisedWhen, hsupported]
  | encodeOOM => simp [raisedWhen, semiPlanar_iff, ← htag, hsupported.2]
  | contractViolation => simp [raisedWhen, hc, not_dimensionsFit_iff, htag]

theorem convStart_listed (hl : Live s) : RaisesListed .convStart s ∨ PassesAllTests .convStart s := by
  by_cases hc : s.cphase = .active
  · exact .inl ⟨.contractViolation, .inl hc, convStart_faults_active hl hc⟩
  cases hf : formatOfTag s.srcFormat with
  | none => exact .inl ⟨.unsupportedFormat, formatOfTag_eq_none.1 hf, convStart_faults_unsupported hl hc hf⟩
  | some f =>
    have hraised := raisedWhen_convStart_iff hc hf
    by_cases hdims : DimensionsFit f s.srcWidth.toNat s.srcHeight.toNat
    · by_cases hcap : semiPlanar f = true ∧ s.cfg.planeCap < 3 * s.srcWidth.toNat * s.srcHeight.toNat
      · exact .inl ⟨.encodeOOM, (hraised _).2 (.inr ⟨rfl, hcap⟩),
          convStart_faults_frame hl hc hf (frameFault_of_capacity hdims hcap.1 hcap.2)⟩
      · have hfault : frameFault f s = none :=
          frameFault_eq_none.2 ⟨hdims, fun hs => Nat.not_lt.1 fun hlt => hcap ⟨hs, hlt⟩⟩
        refine .inr ⟨fun c h => ?_, fun t h => exec_convStart_accepted hl hc hf hfault h⟩
        rcases (hraised c).1 h with ⟨-, hbad⟩ | ⟨-, hfull⟩
        · exact hbad hdims
        · exact hcap hfull
    · exact .inl ⟨.contractViolation, (hraised _).2 (.inl ⟨rfl, hdims⟩),
        convStart_faults_frame hl hc hf (frameFault_of_dims hdims)⟩

theorem convLine_listed (hl : Live s) : RaisesListed .convLine s ∨ PassesAllTests .convLine s := by
  by_cases hc : s.cphase = .active
  · refine .inr ⟨fun c => ?_, fun t h => exec_convLine_active hl hc h⟩
    cases c <;> simp [raisedWhen, hc]
  · exact .inl ⟨.contractViolation, hc, convLine_faults_inactive hl hc⟩

theorem sinkInit_listed (hl : Live s) : RaisesListed .sinkInit s ∨ PassesAllTests .sinkInit s := by
  by_cases ho : s.sphase = .opened
  · exact .inl ⟨.contractViolation, ho, sinkInit_faults_open hl ho⟩
  · have he : Effect .sinkInit s _ := ⟨ho, rfl⟩
    refine .inr ⟨fun c => ?_, fun t h => ?_⟩
    · cases c <;> simp [raisedWhen, ho]
    · rw [exec_sinkInit_of_effect hl he] at h
      exact Host.Outcome.next.inj h ▸ he

theorem push_listed (hl : Live s) (hlow : 1 ≤ s.stgRemaining.toNat) (hhigh : s.stgRemaining.toNat ≤ 4096) (b : Byte) :
    RaisesListed (.push b) s ∨ PassesAllTests (.push b) s := by
  by_cases ho : s.sphase = .opened
  · by_cases hfull : s.stgRemaining.toNat = 1 ∧ s.cfg.dstLimit.toNat < s.dstUsed.toNat + 4096
    · exact .inl ⟨.encodeOOM, hfull, push_faults_full hl ho hfull.1 hfull.2⟩
    · have hroom : s.stgRemaining.toNat = 1 → s.dstUsed.toNat + 4096 ≤ s.cfg.dstLimit.toNat :=
        fun hr => Nat.not_lt.1 fun hlt => hfull ⟨hr, hlt⟩
      refine .inr ⟨fun c => ?_, fun t h => exec_push_room hl ho hlow hhigh hroom h⟩
      cases c with
      | unsupportedFormat => exact id
      | encodeOOM => exact hfull
      | contractViolation => exact fun hclosed => hclosed ho
  · exact .inl ⟨.contractViolation, ho, push_faults_closed hl ho⟩

theorem sinkFinal_listed (hl : Live s) (hhigh : s.stgRemaining.toNat ≤ 4096) :
    RaisesListed .sinkFinal s ∨ PassesAllTests .sinkFinal s := by
  by_cases ho : s.sphase = .opened
  · by_cases hfull : s.cfg.dstLimit.toNat < s.dstUsed.toNat + (4096 - s.stgRemaining.toNat)
    · exact .inl ⟨.encodeOOM, hfull, sinkFinal_faults_full hl ho hhigh hfull⟩
    · refine .inr ⟨fun c => ?_, fun t h => exec_sinkFinal_room hl ho hhigh (Nat.not_lt.1 hfull) h⟩
      cases c with
      | unsupportedFormat => exact id
      | encodeOOM => exact hfull
      | contractViolation => exact fun hclosed => hclosed ho
  · exact .inl ⟨.contractViolation, ho, sinkFinal_faults_closed hl ho⟩

/-- Every command raises a fault of the table or passes every test (R200, R208). -/
theorem raisesListed_or_passesAllTests (hl : Live s) (hlow : 1 ≤ s.stgRemaining.toNat)
    (hhigh : s.stgRemaining.toNat ≤ 4096) (i : Instr) : RaisesListed i s ∨ PassesAllTests i s := by
  cases i with
  | nop => exact .inr ⟨fun _ => id, fun _ h => (Host.Outcome.next.inj h).symm⟩
  | rdreg x => exact .inr ⟨fun _ => id, fun _ h => (Host.Outcome.next.inj h).symm⟩
  | wrcfg reg val => exact wrcfg_listed hl reg val
  | convStart => exact convStart_listed hl
  | convLine => exact convLine_listed hl
  | sinkInit => exact sinkInit_listed hl
  | push b => exact push_listed hl hlow hhigh b
  | sinkFinal => exact sinkFinal_listed hl hhigh

/-- Settles O25: a command raises at most one fault, and that is a listed one unless it passes every test; an illegal word
is rejected with its own opcode. -/
theorem faultsAreExactlyTheListed : Obligations.FaultsAreExactlyTheListed := by
  obtain ⟨-, hrejected, -, -⟩ := illegalWordsFaultOrAreIgnored
  refine ⟨fun i s hl hlow hhigh => ?_, hrejected⟩
  rcases raisesListed_or_passesAllTests hl hlow hhigh i with ⟨c, hlisted, hfaults⟩ | ⟨hnone, heffect⟩
  · exact ⟨fun c' h => faults_unique hfaults h ▸ hlisted, fun _ => ⟨c, hfaults⟩⟩
  · exact ⟨fun c h => absurd h (not_faults_of_effect hl heffect c), fun ⟨c, h⟩ => absurd h (hnone c)⟩

end Sys2Proof.Machine
end

section
/-! PROOFS. Reset in the middle of a command (spec/70_reset_and_hazards.md R230), and the result of a completed encode as
the host reads it (R242, R247). -/

namespace Sys2Proof.Machine

variable {s t : State} {i : Instr} {w : Word}

/-! ### A reset that abandons a command (R230) -/

/-- The commands whose rule writes DST are PUSH and SINK_FINAL, by their opcodes (R30, R92). -/
theorem mayWriteDst_iff : mayWriteDst i = true ↔ i.opByte = 0x21#8 ∨ i.opByte = 0x22#8 := by
  cases i <;> simp [mayWriteDst, Instr.opByte]

theorem resetAbandoning_illegal {why : Illegal} (hdec : decode w = .error why) (s : State) :
    resetAbandoning w s = resetBlock s := by
  simp only [resetAbandoning, hdec]

theorem resetAbandoning_command (hdec : decode w = .ok i) (s : State) :
    resetAbandoning w s = if mayWriteDst i then { resetBlock s with dst := [] } else resetBlock s := by
  simp only [resetAbandoning, hdec]

/-- Whatever the word, SRC is the host's and the parameters are the outside's (R33, R20). -/
theorem resetAbandoning_keeps (w : Word) (s : State) :
    (resetAbandoning w s).src = s.src ∧ (resetAbandoning w s).cfg = s.cfg := by
  rcases resetAbandoning_cases w s with he | he <;> rw [he] <;> exact ⟨rfl, rfl⟩

/-- A word that is no PUSH and no SINK_FINAL by its opcode, legal or not, leaves DST alone. -/
theorem resetAbandoning_keeps_dst (hpush : opField w ≠ 0x21#8) (hfinal : opField w ≠ 0x22#8) (s : State) :
    (resetAbandoning w s).dst = s.dst := by
  cases hdec : decode w with
  | error why => rw [resetAbandoning_illegal hdec, resetBlock_dst]
  | ok i =>
    rw [opField_of_decode hdec] at hpush hfinal
    rw [resetAbandoning_command hdec, if_neg fun hi => (mayWriteDst_iff.1 hi).elim hpush hfinal, resetBlock_dst]

/-- Settles O17: the word's opcode says whether the abandoned command may have written DST; the rest is as after any
reset. -/
theorem resetInACommandAbandonsIt : Obligations.ResetInACommandAbandonsIt := by
  intro s w rest hin
  obtain ⟨hsrc, hcfg⟩ := resetAbandoning_keeps w { s with inbox := rest }
  refine ⟨resetAbandoning w { s with inbox := rest }, by simp [step, hin, takeMove],
    fun r => regValue_resetAbandoning r w _, hsrc, fun hpush hfinal => resetAbandoning_keeps_dst hpush hfinal _,
    fun why hdec => ?_, fun i hdec hi => ?_, hcfg⟩
  · rw [resetAbandoning_illegal hdec, resetBlock_dst]
  · rw [resetAbandoning_command hdec, if_pos (mayWriteDst_iff.2 hi)]

/-! ### What the host reads (R247) -/

/-- The host gets a byte of the result exactly where one stands: the look is answered from DST. -/
theorem hostReadDst_eq_ok {a : Nat} {b : Byte} :
    hostReadDst s a = .ok b ↔
      (Live s ∧ s.resultReady = true ∧ a < s.dstUsed.toNat) ∧ peek s .dst a = some b := by
  unfold hostReadDst
  split
  · next hopen =>
    split
    · next ha => exact lookAt_eq_ok.trans (and_iff_right ⟨hopen.1, hopen.2, ha⟩).symm
    · next ha => exact iff_of_false (nomatch ·) fun ⟨⟨_, _, hlt⟩, _⟩ => ha hlt
  · next hclosed => exact iff_of_false (nomatch ·) fun ⟨⟨hl, hready, _⟩, _⟩ => hclosed ⟨hl, hready⟩

/-- No byte of a result that is ready is missing: what was appended holds a value (R184, R29). -/
theorem hostReadDst_answers_iff (h : BlockInv s) {a : Nat} :
    (∃ b, hostReadDst s a = .ok b) ↔ Live s ∧ s.resultReady = true ∧ a < s.dstUsed.toNat := by
  constructor
  · rintro ⟨b, hb⟩
    exact (hostReadDst_eq_ok.1 hb).1
  · intro hopen
    obtain ⟨b, hb⟩ := Option.isSome_iff_exists.1 (h.written a hopen.2.2)
    exact ⟨b, hostReadDst_eq_ok.2 ⟨hopen, hb⟩⟩

theorem live_of_encodeCompleted (h : encodeCompleted s = true) : Live s :=
  (not_faulted_iff s).2 ((encodeCompleted_iff s).1 h).1

/-! ### When the result becomes ready and when it is taken back (R242) -/

theorem effect_sinkInit_resultReady (he : Effect .sinkInit s t) : t.resultReady = false := by
  obtain ⟨-, rfl⟩ := he
  rfl

/-- The two commands that can end an encode note it if they do. -/
theorem effect_ending_resultReady (he : Effect i s t) (hi : i = .convLine ∨ i = .sinkFinal) :
    t.resultReady = (s.resultReady || encodeCompleted t) := by
  rcases hi with rfl | rfl
  · obtain ⟨-, f, ts, -, -, rfl⟩ := he
    rfl
  · obtain ⟨-, -, -, bs, -, rfl⟩ := he
    rfl

/-- The others, but SINK_INIT, leave the note. -/
theorem effect_keeps_resultReady (he : Effect i s t) (hinit : i ≠ .sinkInit) (hline : i ≠ .convLine)
    (hfinal : i ≠ .sinkFinal) : t.resultReady = s.resultReady := by
  cases i with
  | nop => obtain rfl : t = s := he; rfl
  | rdreg reg => obtain rfl : t = _ := he; rfl
  | wrcfg reg val =>
    obtain ⟨r, -, -, -, rfl⟩ := he
    exact writeConfig_resultReady r val s
  | convStart => obtain ⟨-, f, -, -, ⟨-, rfl⟩ | ⟨-, ts, -, rfl⟩⟩ := he <;> rfl
  | push byte => obtain ⟨-, -, -, ⟨-, rfl⟩ | ⟨-, -, bs, -, rfl⟩⟩ := he <;> rfl
  | sinkInit => exact absurd rfl hinit
  | convLine => exact absurd rfl hline
  | sinkFinal => exact absurd rfl hfinal

/-- After every command but SINK_INIT the result is ready if it was or an encode is complete.  A command that ends no
encode may run where one is complete already; the invariant says it is noted there. -/
theorem effect_resultReady_iff (ht : BlockInv t) (he : Effect i s t) (hinit : i ≠ .sinkInit) :
    t.resultReady = true ↔ s.resultReady = true ∨ encodeCompleted t = true := by
  by_cases hi : i = .convLine ∨ i = .sinkFinal
  · rw [effect_ending_resultReady he hi, Bool.or_eq_true]
  · obtain ⟨hline, hfinal⟩ := not_or.1 hi
    have hsame := effect_keeps_resultReady he hinit hline hfinal
    rw [← hsame]
    exact (or_iff_left_of_imp ht.completedReady).symm

/-- Settles O58: the host's look is answered by the invariant, and the note follows the effect of the command. -/
theorem hostReadsTheResultWhenComplete : Obligations.HostReadsTheResultWhenComplete := by
  refine ⟨fun s a h => ⟨hostReadDst_answers_iff h, fun b hb => (hostReadDst_eq_ok.1 hb).2, fun hdone ha => ?_⟩,
    fun i s t h hexec hlive => ?_⟩
  · exact (hostReadDst_answers_iff h).2 ⟨live_of_encodeCompleted hdone, h.completedReady hdone, ha⟩
  · have he := exec_effect hexec hlive
    by_cases hinit : i = .sinkInit
    · subst hinit
      simp [effect_sinkInit_resultReady he]
    · rw [effect_resultReady_iff (exec_blockInv h hexec) he hinit, and_iff_right hinit]

end Sys2Proof.Machine
end
